-- ==== Sys2Proof/Word.lean ====
section
/-! DEFINITION. The word type of the register files (00_scope.md section 6.1) and its plainest reading. -/

namespace Sys2Proof

/-- Every PMC, PMD and breakpoint register and every address is 64 bits wide (R11 to R24). -/
abbrev Word := BitVec 64

/-- Bit `b` of `v`, written `v{b}` in the spec.
DESIGN CHOICE of the spec (D2), log entry 1: bit 0 is the least significant bit. -/
abbrev bit {w : Nat} (v : BitVec w) (b : Nat) : Bool := v.getLsbD b

/-- The field `v{lo + len - 1 : lo}`, read with its lowest bit as bit 0 (00_scope.md section 6.1). -/
abbrev field {w : Nat} (v : BitVec w) (lo len : Nat) : BitVec len := v.extractLsb' lo len

end Sys2Proof
end

