-- ==== Sys2Proof/Config.lean ====
section
/-! DEFINITION. What one processor fixes and the spec leaves open (00_scope.md section 5), and the free values.
An `opaque` constant has no body: nothing proved about the model can depend on its value. -/

namespace Sys2Proof.Config

/-- VA_IMPL_BITS: bits 50:0 and 63:61 of a virtual address (R3, R41). -/
def vaImplBits : Nat := 54

/-- PA_IMPL_BITS, recorded only: no rule reads a physical address (R3, R42). -/
def paImplBits : Nat := 44

/-- RESET_TA: the value of PMC[13].ta after reset, default 1 (R29, D8). Log entry 4. -/
def resetTa : Bool := true

/-- PT_BIT: the position of `pt` in PMC[11] (R16, R90, D20). Log entry 8. -/
opaque ptBit : Fin 64

/-- IEAR_THRESHOLD: the latency bound each value of PMC[10].umask selects; Table 6-13 is lost (R104, D25). Log entry 9. -/
opaque iearThreshold : BitVec 4 → Nat

/-- IEAR_QUALIFY: the meaning of plm, pm and ism of PMC[10] under PSR.is, PSR.db and PSR.cpl; Table 6-5 is lost
(R103, D25). Log entry 9. -/
opaque iearQualify (plm : BitVec 4) (pm : Bool) (ism : BitVec 2) (psrIs psrDb : Bool) (psrCpl : BitVec 2) : Bool

/-- The values of the parameter IEAR_CLEAR_ON_ENABLE (R107, D16). -/
inductive ClearPolicy where
  | either
  | clear
  | keep
deriving DecidableEq, Repr, Inhabited

/-- IEAR_CLEAR_ON_ENABLE: what re-enabling collection does to the capture state (R107, D16). Log entry 10. -/
opaque iearClearOnEnable : ClearPolicy

/-- SYNC_DELAY: for how many steps after a register write the tag functions may still see the old value
(R48, R135, D9). Log entry 7. -/
opaque syncDelay : Nat

/-- The values of `draw(N)` (00_scope.md section 6.2): the n-th draw of a run is any 64-bit value, of which a rule
uses the N bits it draws. Log entry 2. -/
opaque freeValue : Nat → Word

/-- Whether a `mov r1 = pmd[r3]` at a privilege level other than 0 is allowed; the spec's recollection names PSR.sp
and a `pm` bit (93_implementation_defined.md G1), and the last argument makes the answer free at each read.
PRESUMED. Log entry 15. -/
opaque pmdReadAllowed (psrCpl : BitVec 2) (psrSp : Bool) (n : Nat) : Bool

end Sys2Proof.Config
end

