-- ==== Sys2Proof/Syntax.lean ====
section
/-! DEFINITION. The operations: one constructor for each row of spec/opcode_table.json (R54). The first 29 are the abstract
operations of 30_encoding.md, the last four the `mov` rows marked as general knowledge (93_implementation_defined.md G1). -/

namespace Sys2Proof

/-- The instruction type the opcode matcher sees, "one of M, I, F or B" (R50, R52). -/
inductive IType where
  | M
  | I
  | F
  | B
deriving DecidableEq, Repr

/-- The steps of the model (R54). A register index is part of the constructor, as in the table.
In `evOvf`, bit `k` of `S` says that PMD[4+k] overflows. -/
inductive Instr where
  | pmcRd0
  | pmcWr0 (v : Word)
  | pmcRd1
  | pmcRd2
  | pmcRd3
  | pmcWr1 (v : Word)
  | pmcWr2 (v : Word)
  | pmcWr3 (v : Word)
  | evOvf (S : BitVec 4)
  | pmcRd13
  | pmcWr13 (v : Word)
  | pmcRd8
  | pmcRd9
  | pmcWr8 (v : Word)
  | pmcWr9 (v : Word)
  | evFetch (itype : IType) (enco : BitVec 41)
  | evFetch32
  | pmcRd11
  | pmcWr11 (v : Word)
  | evMemref (addr : Word) (tag8 : Bool)
  | evRseVhpt (addr : Word) (tag8 : Bool)
  | pmcRd10
  | pmcWr10 (v : Word)
  | evIearCapture (line : BitVec 59) (lat : Nat)
  | pmdRd0
  | pmdRd1
  | pmdRd2
  | pmdRd3
  | pmdRd17
  | movToPmc (r3 r2 : BitVec 7) (qp : BitVec 6)
  | movToPmd (r3 r2 : BitVec 7) (qp : BitVec 6)
  | movFromPmc (r1 r3 : BitVec 7) (qp : BitVec 6)
  | movFromPmd (r1 r3 : BitVec 7) (qp : BitVec 6)
deriving DecidableEq, Repr

/-- Why an operation image is no operation of the table, by name (R56). -/
inductive Reject where
  /-- A PMC or PMD index without a rule (R56 (b)). -/
  | noRuleForRegister (index : Nat)
  /-- An instruction type outside M, I, F, B (R86, D17). -/
  | itypeOutside (code : Nat)
  /-- `EV.OVF` of the empty set (R64). -/
  | emptyOverflowSet
  /-- A class of the model's own image format that stands for no operation (log entry 6). -/
  | noSuchClass (cls : Nat)
  /-- A bit the image format leaves unused is set (log entry 6). -/
  | reservedBitsSet
  /-- An IA-64 syllable other than the four of the table; the instruction set is not in the source (00_scope.md 4.2). -/
  | notAnAccessInstruction
deriving DecidableEq, Repr

end Sys2Proof
end

