-- ==== Sys2Proof/WellFormed.lean ====
section
/-! DEFINITION. The checks on an operation that its operand types do not already make. -/

namespace Sys2Proof

/-- `EV.OVF` takes a non-empty set (R64). Every other operand is any value of its type; the latency of a capture is any
natural number (R103). -/
def Instr.wellFormed : Instr → Bool
  | .evOvf S => S != 0
  | .pmcRd0 | .pmcRd1 | .pmcRd2 | .pmcRd3 | .pmcRd8 | .pmcRd9 | .pmcRd10 | .pmcRd11 | .pmcRd13 => true
  | .pmcWr0 _ | .pmcWr1 _ | .pmcWr2 _ | .pmcWr3 _ | .pmcWr8 _ | .pmcWr9 _ | .pmcWr10 _ | .pmcWr11 _ | .pmcWr13 _ => true
  | .evFetch _ _ | .evFetch32 | .evMemref _ _ | .evRseVhpt _ _ | .evIearCapture _ _ => true
  | .pmdRd0 | .pmdRd1 | .pmdRd2 | .pmdRd3 | .pmdRd17 => true
  | .movToPmc _ _ _ | .movToPmd _ _ _ | .movFromPmc _ _ _ | .movFromPmd _ _ _ => true

end Sys2Proof
end

