-- ==== Sys2Proof/Decode.lean ====
section
/-! DEFINITION. Operation images, their decoder and their encoder.
An abstract operation has no binary encoding (R55), so the image format is a DESIGN CHOICE of the model (log entry 6).
Only the four `mov` syllables have bits of the spec: the opcode table's match, mask and fields. -/

namespace Sys2Proof

/-- One operation as it is handed to the unit: a class, 41 low bits (a syllable, or a small operand), an operand word, and
a natural number without bound (the latency of a capture, R103).
As one number: low in bits 40:0, class in bits 47:41, a in bits 111:48, b in the bits from 112 up. -/
structure Image where
  cls : BitVec 7
  low : BitVec 41
  a   : Word
  b   : Nat
deriving DecidableEq, Repr

/-- The image whose bits are those of `w`. -/
def Image.ofNat (w : Nat) : Image where
  low := BitVec.ofNat 41 w
  cls := BitVec.ofNat 7 (w >>> 41)
  a   := BitVec.ofNat 64 (w >>> 48)
  b   := w >>> 112

/-- The number whose bits are those of the image. -/
def Image.toNat (m : Image) : Nat :=
  m.low.toNat + 2 ^ 41 * (m.cls.toNat + 2 ^ 7 * (m.a.toNat + 2 ^ 64 * m.b))

/-- The answer of the decoder where the unused operands `a`, `b` must be zero. -/
def ifUnused (unused : Bool) (i : Instr) : Except Reject Instr :=
  if unused then .ok i else .error .reservedBitsSet

/-- `PMC.RD i`: the indices with a rule (R56 (b)). -/
def decodePmcRd (index : Nat) (unused : Bool) : Except Reject Instr :=
  match index with
  | 0  => ifUnused unused .pmcRd0
  | 1  => ifUnused unused .pmcRd1
  | 2  => ifUnused unused .pmcRd2
  | 3  => ifUnused unused .pmcRd3
  | 8  => ifUnused unused .pmcRd8
  | 9  => ifUnused unused .pmcRd9
  | 10 => ifUnused unused .pmcRd10
  | 11 => ifUnused unused .pmcRd11
  | 13 => ifUnused unused .pmcRd13
  | n  => .error (.noRuleForRegister n)

/-- `PMC.WR i, v`: the indices with a rule (R56 (b)). -/
def decodePmcWr (index : Nat) (v : Word) (unused : Bool) : Except Reject Instr :=
  match index with
  | 0  => ifUnused unused (.pmcWr0 v)
  | 1  => ifUnused unused (.pmcWr1 v)
  | 2  => ifUnused unused (.pmcWr2 v)
  | 3  => ifUnused unused (.pmcWr3 v)
  | 8  => ifUnused unused (.pmcWr8 v)
  | 9  => ifUnused unused (.pmcWr9 v)
  | 10 => ifUnused unused (.pmcWr10 v)
  | 11 => ifUnused unused (.pmcWr11 v)
  | 13 => ifUnused unused (.pmcWr13 v)
  | n  => .error (.noRuleForRegister n)

/-- `PMD.RD i`: the indices with a rule (R56 (b)). -/
def decodePmdRd (index : Nat) (unused : Bool) : Except Reject Instr :=
  match index with
  | 0  => ifUnused unused .pmdRd0
  | 1  => ifUnused unused .pmdRd1
  | 2  => ifUnused unused .pmdRd2
  | 3  => ifUnused unused .pmdRd3
  | 17 => ifUnused unused .pmdRd17
  | n  => .error (.noRuleForRegister n)

/-- The instruction type of a fetch event; any code but the four is refused (R86, D17). -/
def decodeIType (code : Nat) : Except Reject IType :=
  match code with
  | 0 => .ok .M
  | 1 => .ok .I
  | 2 => .ok .F
  | 3 => .ok .B
  | n => .error (.itypeOutside n)

/-- The bits of a syllable the table's mask 0x1EFF8000000 compares: enco{40:37} and enco{35:27} (formats M42 and M43). -/
def syllableKey (enco : BitVec 41) : BitVec 4 × BitVec 9 := (field enco 37 4, field enco 27 9)

/-- The four `mov` rows of the opcode table. PRESUMED (general knowledge of the spec's author, G1), log entry 14.
Bits the mask leaves out and no field uses are ignored. -/
def decodeSyllable (enco : BitVec 41) : Except Reject Instr :=
  let qp := field enco 0 6
  let r1 := field enco 6 7
  let r2 := field enco 13 7
  let r3 := field enco 20 7
  if syllableKey enco = (1, 0x04) then .ok (.movToPmc r3 r2 qp)
  else if syllableKey enco = (1, 0x05) then .ok (.movToPmd r3 r2 qp)
  else if syllableKey enco = (1, 0x14) then .ok (.movFromPmc r1 r3 qp)
  else if syllableKey enco = (1, 0x15) then .ok (.movFromPmd r1 r3 qp)
  else .error .notAnAccessInstruction

/-- The one-bit operand `tag8` of a memory reference (R94, R95). -/
def decodeTag8 (low : BitVec 41) (i : Bool → Instr) (unused : Bool) : Except Reject Instr :=
  if low = 0 then ifUnused unused (i false) else if low = 1 then ifUnused unused (i true) else .error .reservedBitsSet

/-- `EV.OVF S`: bit n of `low`, n = 4 to 7, says that n is in S, as in PMC[0] (R11, R64). -/
def decodeOvf (low : BitVec 41) (unused : Bool) : Except Reject Instr :=
  if field low 0 4 = 0 ∧ field low 8 33 = 0 then
    if field low 4 4 = 0 then .error .emptyOverflowSet else ifUnused unused (.evOvf (field low 4 4))
  else .error .reservedBitsSet

/-- The decoder, total on every image. -/
def decode (m : Image) : Except Reject Instr :=
  match m.cls.toNat with
  | 0 => if m.a = 0 ∧ m.b = 0 then decodeSyllable m.low else .error .reservedBitsSet
  | 1 => decodePmcRd m.low.toNat (m.a == 0 && m.b == 0)
  | 2 => decodePmcWr m.low.toNat m.a (m.b == 0)
  | 3 => decodePmdRd m.low.toNat (m.a == 0 && m.b == 0)
  | 4 => decodeOvf m.low (m.a == 0 && m.b == 0)
  | 5 =>
    match decodeIType m.a.toNat with
    | .ok t    => ifUnused (m.b == 0) (.evFetch t m.low)
    | .error e => .error e
  | 6 => ifUnused (m.low == 0 && m.a == 0 && m.b == 0) .evFetch32
  | 7 => decodeTag8 m.low (.evMemref m.a) (m.b == 0)
  | 8 => decodeTag8 m.low (.evRseVhpt m.a) (m.b == 0)
  | 9 => ifUnused (m.low == 0 && field m.a 59 5 == 0) (.evIearCapture (field m.a 0 59) m.b)
  | n => .error (.noSuchClass n)

/-- The instruction the decoder reads from the bits `w`, every bit from `nbits` up being 0. -/
def decodeTableWord (nbits w : Nat) : Option Instr :=
  match decode (Image.ofNat (w % 2 ^ nbits)) with
  | .ok i    => some i
  | .error _ => none

/-- A syllable of format M42 (`mov pmc[r3] = r2`, `mov pmd[r3] = r2`) with the extension x6 in enco{32:27} (G1). -/
def encodeM42 (x6 : BitVec 6) (r3 r2 : BitVec 7) (qp : BitVec 6) : BitVec 41 :=
  1#4 ++ 0#1 ++ 0#3 ++ x6 ++ r3 ++ r2 ++ 0#7 ++ qp

/-- A syllable of format M43 (`mov r1 = pmc[r3]`, `mov r1 = pmd[r3]`) with the extension x6 in enco{32:27} (G1). -/
def encodeM43 (x6 : BitVec 6) (r1 r3 : BitVec 7) (qp : BitVec 6) : BitVec 41 :=
  1#4 ++ 0#1 ++ 0#3 ++ x6 ++ r3 ++ 0#7 ++ r1 ++ qp

/-- The code of an instruction type in an image. -/
def encodeIType : IType → Word
  | .M => 0
  | .I => 1
  | .F => 2
  | .B => 3

/-- The image of an operation that only a register index tells apart, with operand word `v`. -/
def indexed (cls : BitVec 7) (index : Nat) (v : Word) : Image := ⟨cls, BitVec.ofNat 41 index, v, 0⟩

/-- The image of a memory reference. -/
def reference (cls : BitVec 7) (addr : Word) (tag8 : Bool) : Image := ⟨cls, if tag8 then 1 else 0, addr, 0⟩

/-- The encoder: the image of each operation. -/
def encode : Instr → Image
  | .pmcRd0              => indexed 1 0 0
  | .pmcRd1              => indexed 1 1 0
  | .pmcRd2              => indexed 1 2 0
  | .pmcRd3              => indexed 1 3 0
  | .pmcRd8              => indexed 1 8 0
  | .pmcRd9              => indexed 1 9 0
  | .pmcRd10             => indexed 1 10 0
  | .pmcRd11             => indexed 1 11 0
  | .pmcRd13             => indexed 1 13 0
  | .pmcWr0 v            => indexed 2 0 v
  | .pmcWr1 v            => indexed 2 1 v
  | .pmcWr2 v            => indexed 2 2 v
  | .pmcWr3 v            => indexed 2 3 v
  | .pmcWr8 v            => indexed 2 8 v
  | .pmcWr9 v            => indexed 2 9 v
  | .pmcWr10 v           => indexed 2 10 v
  | .pmcWr11 v           => indexed 2 11 v
  | .pmcWr13 v           => indexed 2 13 v
  | .pmdRd0              => indexed 3 0 0
  | .pmdRd1              => indexed 3 1 0
  | .pmdRd2              => indexed 3 2 0
  | .pmdRd3              => indexed 3 3 0
  | .pmdRd17             => indexed 3 17 0
  | .evOvf S             => ⟨4, 0#33 ++ S ++ 0#4, 0, 0⟩
  | .evFetch t enco      => ⟨5, enco, encodeIType t, 0⟩
  | .evFetch32           => ⟨6, 0, 0, 0⟩
  | .evMemref addr t     => reference 7 addr t
  | .evRseVhpt addr t    => reference 8 addr t
  | .evIearCapture l lat => ⟨9, 0, 0#5 ++ l, lat⟩
  | .movToPmc r3 r2 qp   => ⟨0, encodeM42 0x04 r3 r2 qp, 0, 0⟩
  | .movToPmd r3 r2 qp   => ⟨0, encodeM42 0x05 r3 r2 qp, 0, 0⟩
  | .movFromPmc r1 r3 qp => ⟨0, encodeM43 0x14 r1 r3 qp, 0, 0⟩
  | .movFromPmd r1 r3 qp => ⟨0, encodeM43 0x15 r1 r3 qp, 0, 0⟩

end Sys2Proof
end

