-- ==== Sys2Proof/Machine/State.lean ====
section
/-! DEFINITION. The state as plain data, the reasons a step can stop, and the state after reset. Values only; every
operation over them stands in the other files of Machine/. INVENTORY.md lists each field with its rule. -/

namespace Sys2Proof.Machine

/-- PMC[0], the overflow status register (R11): bit `k` of `overflow` is bit 4+k of the register, for PMD[4+k]. -/
structure Pmc0 where
  fr       : Bool
  overflow : BitVec 4
deriving DecidableEq, Repr

/-- An opcode match register, PMC[8] or PMC[9] (R14). -/
structure OpMatch where
  m         : Bool
  i         : Bool
  f         : Bool
  b         : Bool
  matchBits : BitVec 27
  maskBits  : BitVec 27
deriving DecidableEq, Repr

/-- PMC[10], the configuration of the instruction EAR (R15). -/
structure Pmc10 where
  plm   : BitVec 4
  pm    : Bool
  tlb   : Bool
  umask : BitVec 4
  ism   : BitVec 2
deriving DecidableEq, Repr

/-- PMD[0] (R18): valid bit, TLB miss bit, bits 63:5 of the instruction cache line address. -/
structure Pmd0 where
  v    : Bool
  tlb  : Bool
  line : BitVec 59
deriving DecidableEq, Repr

/-- PMD[1] (R19). -/
structure Pmd1 where
  latency : BitVec 12
deriving DecidableEq, Repr

/-- The state the unit owns, "and nothing else" (R10). PMC[1], PMC[2], PMC[3] hold no state (R12). -/
structure Regs where
  pmc0         : Pmc0
  pmc8         : OpMatch
  pmc9         : OpMatch
  pmc10        : Pmc10
  /-- PMC[11].pt, the one bit of PMC[11] the spec keeps (R16). -/
  pt           : Bool
  /-- PMC[13].ta (R17). -/
  ta           : Bool
  pmd0         : Pmd0
  pmd1         : Pmd1
  /-- The hidden bit `iear_captured` (R26). -/
  iearCaptured : Bool
deriving DecidableEq, Repr

/-- An instruction breakpoint register pair: IBR[2i] holds `addr`, IBR[2i+1] the rest (R21). -/
structure IbrPair where
  addr : Word
  mask : BitVec 56
  plm  : BitVec 4
  x    : Bool
deriving DecidableEq, Repr

/-- A data breakpoint register pair: DBR[2i] holds `addr`, DBR[2i+1] the rest (R22). -/
structure DbrPair where
  addr : Word
  mask : BitVec 56
  plm  : BitVec 4
  r    : Bool
  w    : Bool
deriving DecidableEq, Repr

/-- The fields of PSR that are read (R23); `sp` by the `mov` rows alone (G1, log entry 15). -/
structure Psr where
  is  : Bool
  db  : Bool
  cpl : BitVec 2
  sp  : Bool
deriving DecidableEq, Repr

/-- How old the register values are that the tag functions see in this step: 0 for the present value, k for the value
k steps ago. An input of the step of the model's own, bounded by SYNC_DELAY (R135, log entry 7). -/
structure Lag where
  ta   : Nat
  pmc8 : Nat
  pmc9 : Nat
  pt   : Nat
deriving DecidableEq, Repr

/-- The inputs from the rest of the processor, written by no rule (R10, R13, R21 to R24).
Bit `k` of `oi` is the overflow interrupt bit of PMC[4+k]. -/
structure Env where
  ip  : Word
  psr : Psr
  ibr : Vector IbrPair 4
  dbr : Vector DbrPair 4
  oi  : BitVec 4
  lag : Lag
deriving DecidableEq, Repr

/-- The general and predicate registers the `mov` rows name; the unit has none of its own (D1). PRESUMED, log entry 14. -/
structure CoreRegs where
  gr : Vector Word 128
  pr : BitVec 64
deriving DecidableEq, Repr

/-- What a step shows (R5): the result of a read and the outputs of an event. Outputs are not state of the unit;
this is the model's record of the last operation's, replaced whole by each. `taken` is false for an event that is not enabled. -/
structure Obs where
  taken         : Bool
  result        : Option Word
  ibrRangeTag   : Option Bool
  match8        : Option Bool
  match9        : Option Bool
  tag8          : Option Bool
  tag9          : Option Bool
  dbrRangeMatch : Option Bool
  dbrRangeTag   : Option Bool
  rangeTag      : Option Bool
  pmiRequest    : Bool
deriving DecidableEq, Repr

/-- An operation that takes place and shows nothing. -/
def Obs.silent : Obs := ⟨true, none, none, none, none, none, none, none, none, none, false⟩

/-- An event that is not enabled, or no operation at all. -/
def Obs.notTaken : Obs := { Obs.silent with taken := false }

/-- One operation on its way to the unit, with the inputs of its step (R4: "parameters of the step"). -/
structure Request where
  env   : Env
  image : Image
deriving DecidableEq, Repr

/-- The register values the tag functions read (R73, R85, R93). -/
structure TagRegs where
  ta   : Bool
  pmc8 : OpMatch
  pmc9 : OpMatch
  pt   : Bool
deriving DecidableEq, Repr

structure State where
  /-- The unit's own state (R10). -/
  regs  : Regs
  /-- The inputs of the present step. -/
  env   : Env
  /-- What the `mov` rows read and write. -/
  core  : CoreRegs
  /-- The operations to come, first to be taken first: one totally ordered interleaving of both agents (R48, D27). -/
  inbox : List Request
  /-- The model's own: what the tag functions would have read before each earlier step, newest first (log entry 7). -/
  past  : List TagRegs
  /-- The model's own: how many values have been drawn (log entry 2). -/
  draws : Nat
  /-- The model's own: what the last operation showed. -/
  obs   : Obs
deriving DecidableEq, Repr

/-- Why the machine stops where the processor would raise a fault. No rule of the spec raises one (R120): both stem from
the recollection behind the `mov` rows. -/
inductive Fault where
  /-- A `mov` to a PMC or PMD, or from a PMC, at a privilege level other than 0. Raised by `execMovToPmc`, `execMovToPmd`
  and `execMovFromPmc`. Safe: the fault's entry is described nowhere, and the model stops. -/
  | privilegedOperation
  /-- A `mov` whose target is general register 0. Raised by `execMovFromPmc` and `execMovFromPmd`. Safe, as above. -/
  | targetIsRegister0
deriving DecidableEq, Repr

/-- Why the model has no meaning to give: "a refusal is not a fault of the chip" (R120). Every one is safe. -/
inductive Refusal where
  /-- An instruction without a meaning yet. Raised by `exec` alone. -/
  | notModelled (mnemonic : String)
  /-- A PMC or PMD index without a rule (R56 (b)). Raised by the `mov` rows, whose index is a register's value. -/
  | noRuleForRegister (index : Nat)
  /-- A write to a PMD, which no rule describes (R56 (b)). Raised by `execMovToPmd`. -/
  | pmdWriteNotInSource (index : Nat)
  /-- A frozen read of PMD[0] or PMD[1] with PMC[10].tlb = 1 (R108). Raised by `execPmdRd0`, `execPmdRd1`. -/
  | tlbModeNotInSource
  /-- A frozen read of PMD[2], PMD[3] or PMD[17] (R110). Raised by `execPmdRd2`, `execPmdRd3`, `execPmdRd17`. -/
  | dataEarLayoutNotInSource
  /-- `EV.OVF` of the empty set, which is no operation (R64). Raised by `execEvOvf`. -/
  | emptyOverflowSet
  /-- An image the decoder rejects (R56, R86). Raised by `step`. -/
  | undecodable (why : Reject)
deriving DecidableEq, Repr

/-- The state after reset. R29 gives PMC[13].ta = 1 (RESET_TA) and nothing else; every other value is a DESIGN CHOICE,
log entries 3, 5 and 14. -/
def State.reset : State where
  regs :=
    { pmc0 := ⟨false, 0⟩, pmc8 := ⟨false, false, false, false, 0, 0⟩, pmc9 := ⟨false, false, false, false, 0, 0⟩,
      pmc10 := ⟨0, false, false, 0, 0⟩, pt := false, ta := Config.resetTa, pmd0 := ⟨false, false, 0⟩, pmd1 := ⟨0⟩,
      iearCaptured := false }
  env :=
    { ip := 0, psr := ⟨false, false, 0, false⟩, ibr := Vector.replicate 4 ⟨0, 0, 0, false⟩,
      dbr := Vector.replicate 4 ⟨0, 0, 0, false, false⟩, oi := 0, lag := ⟨0, 0, 0, 0⟩ }
  core  := ⟨Vector.replicate 128 0, 0⟩
  inbox := []
  past  := []
  draws := 0
  obs   := Obs.notTaken

end Sys2Proof.Machine
end

