-- ==== Sys2Proof/Machine/Operands.lean ====
section
/-! DEFINITION. The register images: what a read of each register returns and what a write stores (R53), and the operands
of the `mov` rows. Ignored fields read zero and drop what is written (R25, D3). -/

namespace Sys2Proof.Machine

/-- `PMC.RD 0` (R60). -/
def Pmc0.image (p : Pmc0) : Word := 0#56 ++ p.overflow ++ 0#3 ++ BitVec.ofBool p.fr

/-- `PMC.WR 0, v` (R61). -/
def Pmc0.ofImage (v : Word) : Pmc0 where
  fr       := bit v 0
  overflow := field v 4 4

/-- `PMC.RD 8`, `PMC.RD 9` (R80). -/
def OpMatch.image (p : OpMatch) : Word :=
  BitVec.ofBool p.m ++ BitVec.ofBool p.i ++ BitVec.ofBool p.f ++ BitVec.ofBool p.b ++ p.matchBits ++ 0#3 ++ p.maskBits ++ 0#3

/-- `PMC.WR 8, v`, `PMC.WR 9, v` (R81). -/
def OpMatch.ofImage (v : Word) : OpMatch where
  m         := bit v 63
  i         := bit v 62
  f         := bit v 61
  b         := bit v 60
  matchBits := field v 33 27
  maskBits  := field v 3 27

/-- `PMC.RD 10` (R100). -/
def Pmc10.image (p : Pmc10) : Word :=
  0#38 ++ p.ism ++ 0#4 ++ p.umask ++ 0#8 ++ BitVec.ofBool p.tlb ++ BitVec.ofBool p.pm ++ 0#2 ++ p.plm

/-- `PMC.WR 10, v` (R101). -/
def Pmc10.ofImage (v : Word) : Pmc10 where
  plm   := field v 0 4
  pm    := bit v 6
  tlb   := bit v 7
  umask := field v 16 4
  ism   := field v 24 2

/-- `PMC.RD 11` (R90): bit PT_BIT is `pt`, every other bit is that of the drawn word. -/
def pmc11Image (pt : Bool) (drawn : Word) : Word :=
  let mask := BitVec.twoPow 64 Config.ptBit.val
  (drawn &&& ~~~mask) ||| (if pt then mask else 0)

/-- `PMC.WR 11, v` (R90): the bit that is stored. -/
def pmc11Pt (v : Word) : Bool := bit v Config.ptBit.val

/-- `PMC.RD 13` (R70). -/
def pmc13Image (ta : Bool) : Word := 0#63 ++ BitVec.ofBool ta

/-- `PMC.WR 13, v` (R71). -/
def pmc13Ta (v : Word) : Bool := bit v 0

/-- The frozen read of PMD[0] in cache mode (R105): bit 1 is a draw, and so is the line address where nothing was captured. -/
def pmd0Image (r : Regs) (drawn : Word) : Word :=
  (if r.iearCaptured then r.pmd0.line else field drawn 5 59) ++ 0#3 ++ BitVec.ofBool (bit drawn 1) ++ BitVec.ofBool r.iearCaptured

/-- The frozen read of PMD[1] in cache mode (R106): the latency is a draw where nothing was captured. -/
def pmd1Image (r : Regs) (drawn : Word) : Word :=
  0#52 ++ (if r.iearCaptured then r.pmd1.latency else field drawn 0 12)

/-- The latency a capture stores (R103, D15): one that does not fit 12 bits leaves a drawn value. -/
def capturedLatency (lat : Nat) (drawn : Word) : BitVec 12 :=
  if lat < 4096 then BitVec.ofNat 12 lat else field drawn 2 12

/-- General register `r`; register 0 reads zero. PRESUMED, log entry 14. -/
def CoreRegs.readGr (c : CoreRegs) (r : BitVec 7) : Word := if r = 0 then 0 else c.gr[r.toNat]

/-- The general registers after `r` is written. -/
def CoreRegs.writeGr (c : CoreRegs) (r : BitVec 7) (v : Word) : CoreRegs := { c with gr := c.gr.set r.toNat v }

/-- Predicate register `p`; predicate 0 reads true. PRESUMED, log entry 14. -/
def CoreRegs.readPr (c : CoreRegs) (p : BitVec 6) : Bool := p == 0 || bit c.pr p.toNat

end Sys2Proof.Machine
end

