-- ==== Sys2Proof/Machine/Flags.lean ====
section
/-! DEFINITION. The Boolean functions of the unit: the address and opcode matches, the tags, and the status bits of PMC[0]. -/

namespace Sys2Proof.Machine

/-- `AND b=lo..hi (p b)` of 00_scope.md section 6.1. -/
def allBits (lo hi : Nat) (p : Nat → Bool) : Bool := (List.range' lo (hi + 1 - lo)).all p

/-- The address part of R72 and R91: `a` is the address register, `k` the mask, `x` the address that is checked. -/
def addrMatch (a : Word) (k : BitVec 56) (x : Word) : Bool :=
  allBits 0 50 (fun b => (bit a b && bit k b) == (bit x b && bit k b)) &&
  allBits 51 55 (fun b => (bit a b && bit k b) == (bit x 50 && bit k b)) &&
  allBits 56 60 (fun b => bit a b == bit x 50) &&
  allBits 61 63 (fun b => bit a b == bit x b)

/-- `IBRmatch_i` (R72): the x-bit does not enter. -/
def ibrMatch (p : IbrPair) (cpl : BitVec 2) (ip : Word) : Bool := bit p.plm cpl.toNat && addrMatch p.addr p.mask ip

/-- IBRmatch_0 or IBRmatch_1 or IBRmatch_2 or IBRmatch_3. -/
def ibrAnyMatch (e : Env) : Bool :=
  ibrMatch e.ibr[0] e.psr.cpl e.ip || ibrMatch e.ibr[1] e.psr.cpl e.ip ||
  ibrMatch e.ibr[2] e.psr.cpl e.ip || ibrMatch e.ibr[3] e.psr.cpl e.ip

/-- PSR.db or IBR[1].x or IBR[3].x or IBR[5].x or IBR[7].x: the IBRs are in use as breakpoints (R73, R75). -/
def ibrInUseAsBreakpoints (e : Env) : Bool := e.psr.db || e.ibr[0].x || e.ibr[1].x || e.ibr[2].x || e.ibr[3].x

/-- `IBRRangeTag` (R73), `ta` being the value of PMC[13].ta that is seen. -/
def ibrRangeTag (ta : Bool) (e : Env) : Bool := ta || (!e.psr.is && (ibrAnyMatch e && !ibrInUseAsBreakpoints e))

/-- `imatch` (R82). -/
def imatch (itype : IType) (r : OpMatch) : Bool :=
  match itype with
  | .M => r.m
  | .I => r.i
  | .F => r.f
  | .B => r.b

/-- `ematch` (R83, D7). -/
def ematch (enco : BitVec 41) (matchBits maskBits : BitVec 27) : Bool :=
  allBits 27 40 (fun b => bit enco b == bit matchBits (b - 14) || bit maskBits (b - 14)) &&
  allBits 0 12 (fun b => bit enco b == bit matchBits b || bit maskBits b)

/-- `Match(PMC[j])` (R84). -/
def opcodeMatch (r : OpMatch) (itype : IType) (enco : BitVec 41) : Bool :=
  imatch itype r && ematch enco r.matchBits r.maskBits

/-- `Tag(PMC[j])` (R85). -/
def opcodeTag (isMatch rangeTag psrIs : Bool) : Bool := isMatch && rangeTag && !psrIs

/-- `DBRRangeMatch_i` (R91): r, w and plm are ignored. -/
def dbrMatch (p : DbrPair) (addr : Word) : Bool := addrMatch p.addr p.mask addr

/-- `DBRRangeMatch` (R92). -/
def dbrRangeMatch (e : Env) (addr : Word) : Bool :=
  (dbrMatch e.dbr[0] addr || dbrMatch e.dbr[1] addr || dbrMatch e.dbr[2] addr || dbrMatch e.dbr[3] addr) && !e.psr.db

/-- `DBRRangeTag` of an instruction's reference (R93). -/
def dbrRangeTag (tag8 pt rangeMatch : Bool) : Bool := tag8 && (pt || rangeMatch)

/-- `RangeTag` of an RSE operation or a VHPT walk (R95, C4). -/
def rseVhptRangeTag (tag8 pt rangeMatch : Bool) : Bool := if pt then tag8 else rangeMatch

/-- Some counter of the set has its overflow interrupt bit set, which freezes the unit (R64). -/
def someInterrupting (S oi : BitVec 4) : Bool := S &&& oi != 0

/-- The status bits after the counters of `S` overflow (R64): both fields are only ever set. -/
def Pmc0.afterOverflow (p : Pmc0) (S oi : BitVec 4) : Pmc0 where
  fr       := p.fr || someInterrupting S oi
  overflow := p.overflow ||| S

/-- A miss that the instruction EAR may capture: not frozen, cache mode, a latency that exceeds the threshold, and
qualified (R103, R104, R65). -/
def captureEnabled (r : Regs) (e : Env) (lat : Nat) : Bool :=
  !r.pmc0.fr && !r.pmc10.tlb && decide (Config.iearThreshold r.pmc10.umask < lat) &&
  Config.iearQualify r.pmc10.plm r.pmc10.pm r.pmc10.ism e.psr.is e.psr.db e.psr.cpl

/-- A write of PMC[0] that changes fr from 1 to 0 re-enables collection (R61, R107). -/
def reEnables (old new : Pmc0) : Bool := old.fr && !new.fr

end Sys2Proof.Machine
end

