-- ==== Sys2Proof/Machine/Ops.lean ====
section
/-! DEFINITION. The operations the meanings share. The unit accesses no memory (R43) and takes no exception (R120, R123):
the one thing like it is the overflow with its interrupt request, `overflowCounters`. -/

namespace Sys2Proof.Machine

/-- The outcome of an operation. -/
abbrev Result := Host.Outcome State Fault Refusal

/-- The state that shows `o`. -/
def State.show (s : State) (o : Obs) : State := { s with obs := o }

/-- The state with other registers of the unit. -/
def State.setRegs (s : State) (r : Regs) : State := { s with regs := r }

/-- The value of `draw(N)` in this step: any 64 bits, of which a rule takes N (00_scope.md section 6.2). -/
def State.drawn (s : State) : Word := Config.freeValue s.draws

/-- The state after a draw: the next draw is another. -/
def State.afterDraw (s : State) : State := { s with draws := s.draws + 1 }

/-- A read that returns `r` and changes nothing. -/
def answer (r : Word) (s : State) : Result := .next (s.show { Obs.silent with result := some r })

/-- A read that returns `r`, a value made with a draw, and changes nothing else. -/
def answerDrawn (r : Word) (s : State) : Result := answer r s.afterDraw

/-- A write: the registers become `r`, nothing is shown. -/
def store (r : Regs) (s : State) : Result := .next ((s.setRegs r).show Obs.silent)

/-- An event that is not enabled: the unit does nothing (R65, D5). DESIGN CHOICE, log entry 11. -/
def notEnabled (s : State) : Result := .next (s.show Obs.notTaken)

/-- An operation that takes place and has no effect. -/
def noEffect (s : State) : Result := .next (s.show Obs.silent)

/-- The value of a register that the tag functions see, `lag` steps old, but never older than SYNC_DELAY steps (R135). -/
def seenAt {α : Type} (lag : Nat) (now : α) (past : List α) : α :=
  match lag with
  | 0     => now
  | k + 1 => if k + 1 ≤ Config.syncDelay then past.getD k now else now

/-- The registers the tag functions read, as they stand. -/
def State.tagRegs (s : State) : TagRegs := ⟨s.regs.ta, s.regs.pmc8, s.regs.pmc9, s.regs.pt⟩

/-- The registers as the tag functions see them in this step (R48, R135, D9). -/
def State.seen (s : State) : TagRegs where
  ta   := seenAt s.env.lag.ta s.regs.ta (s.past.map (·.ta))
  pmc8 := seenAt s.env.lag.pmc8 s.regs.pmc8 (s.past.map (·.pmc8))
  pmc9 := seenAt s.env.lag.pmc9 s.regs.pmc9 (s.past.map (·.pmc9))
  pt   := seenAt s.env.lag.pt s.regs.pt (s.past.map (·.pt))

/-- The counters of `S` overflow: the status bits are set, and a freezing overflow requests the interrupt (R64, R121). -/
def overflowCounters (S : BitVec 4) (s : State) : Result :=
  .next ((s.setRegs { s.regs with pmc0 := s.regs.pmc0.afterOverflow S s.env.oi }).show
    { Obs.silent with pmiRequest := someInterrupting S s.env.oi })

/-- Whether re-enabling collection clears the capture state (IEAR_CLEAR_ON_ENABLE, R107); `either` is a draw. -/
def clearsCapture (drawn : Word) : Bool :=
  match Config.iearClearOnEnable with
  | .either => bit drawn 0
  | .clear  => true
  | .keep   => false

/-- The capture state, `iear_captured` and the valid bit that reports it, after collection is re-enabled (R107). -/
def Regs.restartCollection (r : Regs) (drawn : Word) : Regs :=
  if clearsCapture drawn then { r with iearCaptured := false, pmd0 := { r.pmd0 with v := false } } else r

/-- A miss is captured (R103): both data registers are written in one step. -/
def Regs.capture (r : Regs) (line : BitVec 59) (lat : Nat) (drawn : Word) : Regs :=
  { r with pmd0 := ⟨true, bit drawn 1, line⟩, pmd1 := ⟨capturedLatency lat drawn⟩, iearCaptured := true }

/-- A read of PMD[0] or PMD[1], `frozen` being what it returns while frozen in cache mode (R105 to R108). -/
def readInstructionEar (frozen : Word) (s : State) : Result :=
  if !s.regs.pmc0.fr then answerDrawn s.drawn s
  else if s.regs.pmc10.tlb then .refused .tlbModeNotInSource
  else answerDrawn frozen s

/-- A read of PMD[2], PMD[3] or PMD[17] (R110). -/
def readDataEar (s : State) : Result :=
  if !s.regs.pmc0.fr then answerDrawn s.drawn s else .refused .dataEarLayoutNotInSource

/-- The general register `r1` takes the result of the read. -/
def writeBack (r1 : BitVec 7) (o : Result) : Result :=
  match o with
  | .next t    =>
    match t.obs.result with
    | some v => .next { t with core := t.core.writeGr r1 v }
    | none   => .next t
  | .fault f   => .fault f
  | .refused r => .refused r

/-- A `mov` under its qualifying predicate: no effect where the predicate is false. PRESUMED, log entry 14. -/
def predicated (qp : BitVec 6) (s : State) (o : Result) : Result := if s.core.readPr qp then o else noEffect s

/-- What only privilege level 0 may do. PRESUMED, log entry 15. -/
def privileged (s : State) (o : Result) : Result := if s.env.psr.cpl = 0 then o else .fault .privilegedOperation

/-- General register 0 is no target. PRESUMED, log entry 14. -/
def targeting (r1 : BitVec 7) (o : Result) : Result := if r1 = 0 then .fault .targetIsRegister0 else o

/-- The operation is taken from the inbox with the inputs of its step (R4). -/
def State.accept (s : State) (r : Request) (rest : List Request) : State := { s with env := r.env, inbox := rest }

/-- After a step, what the tag functions would have read before it is remembered (R135). -/
def remember (before : State) (o : Result) : Result :=
  match o with
  | .next t    => .next { t with past := before.tagRegs :: before.past }
  | .fault f   => .fault f
  | .refused r => .refused r

/-- No operation and no event: the unit has "no run of its own" (D28). -/
def idle (s : State) : Result := .next (s.show Obs.notTaken)

/-- An operation placed before all others, with the present inputs. -/
def State.offer (s : State) (m : Image) : State := { s with inbox := ⟨s.env, m⟩ :: s.inbox }

end Sys2Proof.Machine
end

