-- ==== Sys2Proof/Machine/DataRange.lean ====
section
/-! DEFINITION. PMC[11].pt and the memory references (43_data_range_check.md). -/

namespace Sys2Proof.Machine

/-- `PMC.RD 11` (R90). -/
def execPmcRd11 (s : State) : Result := answerDrawn (pmc11Image s.regs.pt s.drawn) s

/-- `PMC.WR 11, v` (R90). -/
def execPmcWr11 (v : Word) (s : State) : Result := store { s.regs with pt := pmc11Pt v } s

/-- `EV.MEMREF addr, tag8` (R94). -/
def execEvMemref (addr : Word) (tag8 : Bool) (s : State) : Result :=
  let rangeMatch := dbrRangeMatch s.env addr
  .next (s.show { Obs.silent with
    dbrRangeMatch := some rangeMatch, dbrRangeTag := some (dbrRangeTag tag8 s.seen.pt rangeMatch) })

/-- `EV.RSEVHPT addr, tag8` (R95). -/
def execEvRseVhpt (addr : Word) (tag8 : Bool) (s : State) : Result :=
  .next (s.show { Obs.silent with rangeTag := some (rseVhptRangeTag tag8 s.seen.pt (dbrRangeMatch s.env addr)) })

end Sys2Proof.Machine
end

