-- ==== Sys2Proof/Machine/InstructionEar.lean ====
section
/-! DEFINITION. The event address registers (44_instruction_ear.md). -/

namespace Sys2Proof.Machine

/-- `PMC.RD 10` (R100). -/
def execPmcRd10 (s : State) : Result := answer s.regs.pmc10.image s

/-- `PMC.WR 10, v` (R101). -/
def execPmcWr10 (v : Word) (s : State) : Result := store { s.regs with pmc10 := Pmc10.ofImage v } s

/-- `EV.IEAR.CAPTURE line, lat` (R103): a qualified miss is captured or dropped, by a draw (D14). -/
def execEvIearCapture (line : BitVec 59) (lat : Nat) (s : State) : Result :=
  if captureEnabled s.regs s.env lat then
    if bit s.drawn 0 then store (s.regs.capture line lat s.drawn) s.afterDraw else noEffect s.afterDraw
  else notEnabled s

/-- `PMD.RD 0` (R105). -/
def execPmdRd0 (s : State) : Result := readInstructionEar (pmd0Image s.regs s.drawn) s

/-- `PMD.RD 1` (R106). -/
def execPmdRd1 (s : State) : Result := readInstructionEar (pmd1Image s.regs s.drawn) s

/-- `PMD.RD 2` (R110). -/
def execPmdRd2 (s : State) : Result := readDataEar s

/-- `PMD.RD 3` (R110). -/
def execPmdRd3 (s : State) : Result := readDataEar s

/-- `PMD.RD 17` (R110). -/
def execPmdRd17 (s : State) : Result := readDataEar s

end Sys2Proof.Machine
end

