-- ==== Sys2Proof/Machine/OpcodeMatch.lean ====
section
/-! DEFINITION. PMC[8,9] and the fetch events (42_opcode_match.md). -/

namespace Sys2Proof.Machine

/-- `PMC.RD 8` (R80). -/
def execPmcRd8 (s : State) : Result := answer s.regs.pmc8.image s

/-- `PMC.RD 9` (R80). -/
def execPmcRd9 (s : State) : Result := answer s.regs.pmc9.image s

/-- `PMC.WR 8, v` (R81). -/
def execPmcWr8 (v : Word) (s : State) : Result := store { s.regs with pmc8 := OpMatch.ofImage v } s

/-- `PMC.WR 9, v` (R81). -/
def execPmcWr9 (v : Word) (s : State) : Result := store { s.regs with pmc9 := OpMatch.ofImage v } s

/-- The outputs of `EV.FETCH` (R86) for the register values `g` that are seen. -/
def fetchOutputs (g : TagRegs) (e : Env) (itype : IType) (enco : BitVec 41) : Obs :=
  let range := ibrRangeTag g.ta e
  let match8 := opcodeMatch g.pmc8 itype enco
  let match9 := opcodeMatch g.pmc9 itype enco
  { Obs.silent with
    ibrRangeTag := some range, match8 := some match8, match9 := some match9,
    tag8 := some (opcodeTag match8 range e.psr.is), tag9 := some (opcodeTag match9 range e.psr.is) }

/-- `EV.FETCH itype, enco` (R86). PSR.is is read as it stands (log entry 12). -/
def execEvFetch (itype : IType) (enco : BitVec 41) (s : State) : Result :=
  .next (s.show (fetchOutputs s.seen s.env itype enco))

/-- `EV.FETCH32` (R89). -/
def execEvFetch32 (s : State) : Result :=
  .next (s.show { Obs.silent with ibrRangeTag := some s.seen.ta, tag8 := some false, tag9 := some false })

end Sys2Proof.Machine
end

