-- ==== Sys2Proof/Machine/OverflowStatus.lean ====
section
/-! DEFINITION. The overflow status registers PMC[0,1,2,3] and the counter overflow (40_overflow_status.md). -/

namespace Sys2Proof.Machine

/-- `PMC.RD 0` (R60). -/
def execPmcRd0 (s : State) : Result := answer s.regs.pmc0.image s

/-- `PMC.WR 0, v` (R61, R107). -/
def execPmcWr0 (v : Word) (s : State) : Result :=
  let new := Pmc0.ofImage v
  let r := { s.regs with pmc0 := new }
  if reEnables s.regs.pmc0 new then store (r.restartCollection s.drawn) s.afterDraw else store r s

/-- `PMC.RD 1` (R62). -/
def execPmcRd1 (s : State) : Result := answer 0 s

/-- `PMC.RD 2` (R62). -/
def execPmcRd2 (s : State) : Result := answer 0 s

/-- `PMC.RD 3` (R62). -/
def execPmcRd3 (s : State) : Result := answer 0 s

/-- `PMC.WR 1, v` (R63). -/
def execPmcWr1 (_v : Word) (s : State) : Result := noEffect s

/-- `PMC.WR 2, v` (R63). -/
def execPmcWr2 (_v : Word) (s : State) : Result := noEffect s

/-- `PMC.WR 3, v` (R63). -/
def execPmcWr3 (_v : Word) (s : State) : Result := noEffect s

/-- `EV.OVF S` (R64, R65). -/
def execEvOvf (S : BitVec 4) (s : State) : Result :=
  if S = 0 then .refused .emptyOverflowSet
  else if s.regs.pmc0.fr then notEnabled s
  else overflowCounters S s

end Sys2Proof.Machine
end

