-- ==== Sys2Proof/Machine/RangeCheck.lean ====
section
/-! DEFINITION. PMC[13] (41_instruction_range_check.md); the range check itself is in Flags.lean. -/

namespace Sys2Proof.Machine

/-- `PMC.RD 13` (R70). -/
def execPmcRd13 (s : State) : Result := answer (pmc13Image s.regs.ta) s

/-- `PMC.WR 13, v` (R71). -/
def execPmcWr13 (v : Word) (s : State) : Result := store { s.regs with ta := pmc13Ta v } s

end Sys2Proof.Machine
end

