-- ==== Sys2Proof/Machine/Moves.lean ====
section
/-! DEFINITION. The four `mov` rows of the opcode table. PRESUMED: they are the spec author's general knowledge of IA-64,
"unverified, not normative" (93_implementation_defined.md G1). Each performs the abstract operation its rule
dispatches, with the index taken from general register r3. Log entries 14 and 15.
DESIGN CHOICE, log entry 29: PSR.is is not looked at; the spec does not say what a `mov` syllable does while it is 1. -/

namespace Sys2Proof.Machine

/-- `PMC.WR i, v` for an index that is a run-time value (R54, R56 (b)). -/
def writePmcIndexed (index : Nat) (v : Word) (s : State) : Result :=
  match index with
  | 0  => execPmcWr0 v s
  | 1  => execPmcWr1 v s
  | 2  => execPmcWr2 v s
  | 3  => execPmcWr3 v s
  | 8  => execPmcWr8 v s
  | 9  => execPmcWr9 v s
  | 10 => execPmcWr10 v s
  | 11 => execPmcWr11 v s
  | 13 => execPmcWr13 v s
  | n  => .refused (.noRuleForRegister n)

/-- `PMC.RD i` for an index that is a run-time value (R54, R56 (b)). -/
def readPmcIndexed (index : Nat) (s : State) : Result :=
  match index with
  | 0  => execPmcRd0 s
  | 1  => execPmcRd1 s
  | 2  => execPmcRd2 s
  | 3  => execPmcRd3 s
  | 8  => execPmcRd8 s
  | 9  => execPmcRd9 s
  | 10 => execPmcRd10 s
  | 11 => execPmcRd11 s
  | 13 => execPmcRd13 s
  | n  => .refused (.noRuleForRegister n)

/-- `PMD.RD i` for an index that is a run-time value (R54, R56 (b)). -/
def readPmdIndexed (index : Nat) (s : State) : Result :=
  match index with
  | 0  => execPmdRd0 s
  | 1  => execPmdRd1 s
  | 2  => execPmdRd2 s
  | 3  => execPmdRd3 s
  | 17 => execPmdRd17 s
  | n  => .refused (.noRuleForRegister n)

/-- Whether a read of a PMD is allowed at the present privilege level (G1). -/
def pmdReadAllowed (s : State) : Bool :=
  s.env.psr.cpl == 0 || Config.pmdReadAllowed s.env.psr.cpl s.env.psr.sp s.draws

/-- `mov pmc[r3] = r2`, whatever PSR.is holds (log entry 29). -/
def execMovToPmc (r3 r2 : BitVec 7) (qp : BitVec 6) (s : State) : Result :=
  predicated qp s (privileged s (writePmcIndexed (s.core.readGr r3).toNat (s.core.readGr r2) s))

/-- `mov pmd[r3] = r2`: "writing a PMD is not described by the source for any PMD" (R56 (b)); whatever PSR.is holds (log
entry 29). -/
def execMovToPmd (r3 _r2 : BitVec 7) (qp : BitVec 6) (s : State) : Result :=
  predicated qp s (privileged s (.refused (.pmdWriteNotInSource (s.core.readGr r3).toNat)))

/-- `mov r1 = pmc[r3]`, whatever PSR.is holds (log entry 29). -/
def execMovFromPmc (r1 r3 : BitVec 7) (qp : BitVec 6) (s : State) : Result :=
  predicated qp s (targeting r1 (privileged s (writeBack r1 (readPmcIndexed (s.core.readGr r3).toNat s))))

/-- `mov r1 = pmd[r3]`: where the read is not allowed, what `r1` takes is a draw; whatever PSR.is holds (log entry 29). -/
def execMovFromPmd (r1 r3 : BitVec 7) (qp : BitVec 6) (s : State) : Result :=
  predicated qp s (targeting r1 (writeBack r1
    (if pmdReadAllowed s then readPmdIndexed (s.core.readGr r3).toNat s else answerDrawn s.drawn s)))

end Sys2Proof.Machine
end

