-- ==== Sys2Proof/Machine/Dispatch.lean ====
section
/-! DEFINITION. One arm for each operation. -/

namespace Sys2Proof.Machine

def exec (i : Instr) (s : State) : Host.Outcome State Fault Refusal :=
  match i with
  -- 40_overflow_status.md
  | .pmcRd0 => Sys2Proof.Machine.execPmcRd0 s
  | .pmcWr0 v => Sys2Proof.Machine.execPmcWr0 v s
  | .pmcRd1 => Sys2Proof.Machine.execPmcRd1 s
  | .pmcRd2 => Sys2Proof.Machine.execPmcRd2 s
  | .pmcRd3 => Sys2Proof.Machine.execPmcRd3 s
  | .pmcWr1 v => Sys2Proof.Machine.execPmcWr1 v s
  | .pmcWr2 v => Sys2Proof.Machine.execPmcWr2 v s
  | .pmcWr3 v => Sys2Proof.Machine.execPmcWr3 v s
  | .evOvf S => Sys2Proof.Machine.execEvOvf S s
  -- 41_instruction_range_check.md
  | .pmcRd13 => Sys2Proof.Machine.execPmcRd13 s
  | .pmcWr13 v => Sys2Proof.Machine.execPmcWr13 v s
  -- 42_opcode_match.md
  | .pmcRd8 => Sys2Proof.Machine.execPmcRd8 s
  | .pmcRd9 => Sys2Proof.Machine.execPmcRd9 s
  | .pmcWr8 v => Sys2Proof.Machine.execPmcWr8 v s
  | .pmcWr9 v => Sys2Proof.Machine.execPmcWr9 v s
  | .evFetch itype enco => Sys2Proof.Machine.execEvFetch itype enco s
  | .evFetch32 => Sys2Proof.Machine.execEvFetch32 s
  -- 43_data_range_check.md
  | .pmcRd11 => Sys2Proof.Machine.execPmcRd11 s
  | .pmcWr11 v => Sys2Proof.Machine.execPmcWr11 v s
  | .evMemref addr tag8 => Sys2Proof.Machine.execEvMemref addr tag8 s
  | .evRseVhpt addr tag8 => Sys2Proof.Machine.execEvRseVhpt addr tag8 s
  -- 44_instruction_ear.md
  | .pmcRd10 => Sys2Proof.Machine.execPmcRd10 s
  | .pmcWr10 v => Sys2Proof.Machine.execPmcWr10 v s
  | .evIearCapture line lat => Sys2Proof.Machine.execEvIearCapture line lat s
  | .pmdRd0 => Sys2Proof.Machine.execPmdRd0 s
  | .pmdRd1 => Sys2Proof.Machine.execPmdRd1 s
  | .pmdRd2 => Sys2Proof.Machine.execPmdRd2 s
  | .pmdRd3 => Sys2Proof.Machine.execPmdRd3 s
  | .pmdRd17 => Sys2Proof.Machine.execPmdRd17 s
  -- 93_implementation_defined.md G1
  | .movToPmc r3 r2 qp => Sys2Proof.Machine.execMovToPmc r3 r2 qp s
  | .movToPmd r3 r2 qp => Sys2Proof.Machine.execMovToPmd r3 r2 qp s
  | .movFromPmc r1 r3 qp => Sys2Proof.Machine.execMovFromPmc r1 r3 qp s
  | .movFromPmd r1 r3 qp => Sys2Proof.Machine.execMovFromPmd r1 r3 qp s

end Sys2Proof.Machine
end

