-- ==== Sys2Proof/Machine/Step.lean ====
section
/-! DEFINITION. One step: the next operation of the inbox is decoded and executed with the inputs it came with. -/

namespace Sys2Proof.Machine

def step (s : State) : Host.Outcome State Fault Refusal :=
  match s.inbox with
  | [] => idle s
  | r :: rest =>
    match decode r.image with
    | .ok i    => remember s (exec i (s.accept r rest))
    | .error e => .refused (.undecodable e)

/-- The state whose next step runs the operation with the bits `w`, under the present inputs (log entry 5). -/
def State.withFetchWord (s : State) (nbits w : Nat) : State := s.offer (Image.ofNat (w % 2 ^ nbits))

end Sys2Proof.Machine
end

