-- ==== Sys2Proof/Safety.lean ====
section
/-! DEFINITION. The terms claims are stated in: the agents, what counts as a run that goes on, the standing invariant. -/

namespace Sys2Proof

/-- The two agents that act on the unit (R4). -/
inductive Agent where
  | software
  | hardware
deriving DecidableEq, Repr

/-- Who performs an operation (R4). -/
def Instr.agent : Instr → Agent
  | .evOvf _ | .evFetch _ _ | .evFetch32 | .evMemref _ _ | .evRseVhpt _ _ | .evIearCapture _ _ => .hardware
  | .pmcRd0 | .pmcRd1 | .pmcRd2 | .pmcRd3 | .pmcRd8 | .pmcRd9 | .pmcRd10 | .pmcRd11 | .pmcRd13 => .software
  | .pmcWr0 _ | .pmcWr1 _ | .pmcWr2 _ | .pmcWr3 _ | .pmcWr8 _ | .pmcWr9 _ | .pmcWr10 _ | .pmcWr11 _ | .pmcWr13 _ => .software
  | .pmdRd0 | .pmdRd1 | .pmdRd2 | .pmdRd3 | .pmdRd17 => .software
  | .movToPmc _ _ _ | .movToPmd _ _ _ | .movFromPmc _ _ _ | .movFromPmd _ _ _ => .software

/-- The operations that read a register: "a read changes nothing" (R60 and its like). -/
def Instr.isRead : Instr → Bool
  | .pmcRd0 | .pmcRd1 | .pmcRd2 | .pmcRd3 | .pmcRd8 | .pmcRd9 | .pmcRd10 | .pmcRd11 | .pmcRd13 => true
  | .pmdRd0 | .pmdRd1 | .pmdRd2 | .pmdRd3 | .pmdRd17 => true
  | .movFromPmc _ _ _ | .movFromPmd _ _ _ => true
  | _ => false

/-- The events whose outputs are tags (R86, R89, R94, R95). -/
def Instr.isTagEvent : Instr → Bool
  | .evFetch _ _ | .evFetch32 | .evMemref _ _ | .evRseVhpt _ _ => true
  | _ => false

namespace Machine

/-- The operation goes on to a next state. -/
def completes (i : Instr) (s : State) : Prop := ∃ t, exec i s = .next t

/-- What no operation changes: the inputs, the operations to come and the record of earlier steps. -/
def State.keepsInputs (s t : State) : Prop := t.env = s.env ∧ t.inbox = s.inbox ∧ t.past = s.past

/-- What the reads and writes of the unit change besides its own registers: nothing but the count of draws and what is shown. -/
def State.keepsAllButRegs (s t : State) : Prop := s.keepsInputs t ∧ t.core = s.core

/-- The standing invariant: `iear_captured` "is what PMD[0].v reports" (R26). -/
def State.captureConsistent (s : State) : Prop := s.regs.pmd0.v = s.regs.iearCaptured

/-- The tag functions see the present registers in this step: the reference semantics (R48, R135). -/
def State.seesPresent (s : State) : Prop := s.env.lag = ⟨0, 0, 0, 0⟩

end Machine

end Sys2Proof
end

