-- ==== Sys2Proof/Certificates/Slice0/Obligations.lean ====
section
/-! DEFINITION. The statements for the provers. -/

open Sys2Proof Sys2Proof.Machine

/-! ### Encoding, decoding, the step -/

/-- The words of the four `mov` rows, written out from the table's match and fields. The rows are the spec author's
general knowledge (log entry 14). 0x02020000000 is the match of `mov pmc[r3] = r2`; 8 stands in bits 26:20, 9 in bits
19:13, 5 in bits 12:6, 3 in bits 5:0. -/
def Obligations.MovRowsDecodeFromTheirTableWords : Prop :=
  decodeTableWord 48 0x02020000000 = some (.movToPmc 0 0 0) ∧
  decodeTableWord 48 0x02020812003 = some (.movToPmc 8 9 3) ∧
  decodeTableWord 48 0x02028812003 = some (.movToPmd 8 9 3) ∧
  decodeTableWord 48 0x020A0800143 = some (.movFromPmc 5 8 3) ∧
  decodeTableWord 48 0x020A8800143 = some (.movFromPmd 5 8 3)

/-- No bit of any operation is dropped between the encoder, the number that carries the image, and the decoder: 112 bits
carry every operation but a capture, which takes k more for a latency of k bits, without bound (R103).
The image format is the model's choice (log entry 6). -/
def Obligations.DecodingTheEncodingGivesTheOperation : Prop :=
  ∀ (i : Instr) (k : Nat), i.wellFormed = true → (∀ line lat, i = .evIearCapture line lat → lat < 2 ^ k) →
    decodeTableWord (112 + k) (encode i).toNat = some i

/-- The other direction: what the decoder accepts is well formed, and outside the `mov` syllables, whose ignored bits
are free, each operation has one image. The image format is the model's choice (log entry 6). -/
def Obligations.EachAbstractOperationHasOneImage : Prop :=
  ∀ (m : Image) (i : Instr), decode m = .ok i → i.wellFormed = true ∧ (m.cls ≠ 0 → encode i = m)

/-- Each `mov` row is recognised by exactly the table's mask and match, with its fields where the table puts them
(general knowledge, log entry 14). -/
def Obligations.MovRowsAreThoseOfTheTableMask : Prop :=
  ∀ enco : BitVec 41,
    (decode ⟨0, enco, 0, 0⟩ = .ok (.movToPmc (enco.extractLsb' 20 7) (enco.extractLsb' 13 7) (enco.extractLsb' 0 6)) ↔
      enco &&& 0x1EFF8000000 = 0x02020000000) ∧
    (decode ⟨0, enco, 0, 0⟩ = .ok (.movToPmd (enco.extractLsb' 20 7) (enco.extractLsb' 13 7) (enco.extractLsb' 0 6)) ↔
      enco &&& 0x1EFF8000000 = 0x02028000000) ∧
    (decode ⟨0, enco, 0, 0⟩ = .ok (.movFromPmc (enco.extractLsb' 6 7) (enco.extractLsb' 20 7) (enco.extractLsb' 0 6)) ↔
      enco &&& 0x1EFF8000000 = 0x020A0000000) ∧
    (decode ⟨0, enco, 0, 0⟩ = .ok (.movFromPmd (enco.extractLsb' 6 7) (enco.extractLsb' 20 7) (enco.extractLsb' 0 6)) ↔
      enco &&& 0x1EFF8000000 = 0x020A8000000)

/-- R56 (b) and the D17 clause of R86: no index without a rule, and no instruction type but the four, reaches a meaning. -/
def Obligations.IndicesAndTypesWithoutARuleAreRejected : Prop :=
  ∀ (low : BitVec 41) (a : Word) (b : Nat),
    (low.toNat ∉ [0, 1, 2, 3, 8, 9, 10, 11, 13] →
      decode ⟨1, low, a, b⟩ = .error (.noRuleForRegister low.toNat) ∧
      decode ⟨2, low, a, b⟩ = .error (.noRuleForRegister low.toNat)) ∧
    (low.toNat ∉ [0, 1, 2, 3, 17] → decode ⟨3, low, a, b⟩ = .error (.noRuleForRegister low.toNat)) ∧
    (3 < a.toNat → decode ⟨5, low, a, b⟩ = .error (.itypeOutside a.toNat))

/-- A step takes the first operation of the inbox, with its inputs, and executes what it decodes to; around that it only
remembers what the tag functions would have read before. -/
def Obligations.StepRunsTheDecodedOperation : Prop :=
  ∀ (s : State) (r : Request) (rest : List Request) (i : Instr), s.inbox = r :: rest → decode r.image = .ok i →
    (∀ t, exec i { s with env := r.env, inbox := rest } = .next t →
      step s = .next { t with past := ⟨s.regs.ta, s.regs.pmc8, s.regs.pmc9, s.regs.pt⟩ :: s.past }) ∧
    (∀ f, exec i { s with env := r.env, inbox := rest } = .fault f → step s = .fault f) ∧
    (∀ f, exec i { s with env := r.env, inbox := rest } = .refused f → step s = .refused f)

/-- The step stops where the next image decodes to no operation, and changes no register where there is no operation
(the idle step is the model's choice, log entry 5). -/
def Obligations.StepRefusesWhatIsNoOperation : Prop :=
  ∀ s : State,
    (∀ (r : Request) (rest : List Request) (e : Reject), s.inbox = r :: rest → decode r.image = .error e →
      step s = .refused (.undecodable e)) ∧
    (s.inbox = [] → step s = .next { s with obs := Obs.notTaken })

/-- A word that is placed is what the next step executes, for every operation of the table. -/
def Obligations.PlacedOperationIsExecutedNext : Prop :=
  ∀ (s : State) (nbits w : Nat) (i : Instr) (t : State), decodeTableWord nbits w = some i → exec i s = .next t →
    step (s.withFetchWord nbits w) = .next { t with past := ⟨s.regs.ta, s.regs.pmc8, s.regs.pmc9, s.regs.pt⟩ :: s.past }

/-! ### Overflow status registers -/

/-- R60. -/
def Obligations.ReadOfPmc0ReturnsFreezeAndOverflow : Prop :=
  ∀ s : State, ∃ r : Word,
    exec .pmcRd0 s = .next { s with obs := { Obs.silent with result := some r } } ∧
    r.getLsbD 0 = s.regs.pmc0.fr ∧ r.extractLsb' 1 3 = 0 ∧ r.extractLsb' 4 4 = s.regs.pmc0.overflow ∧
    r.extractLsb' 8 56 = 0 ∧ r.toNat ≤ 0xF1

/-- R61, and the parameter IEAR_CLEAR_ON_ENABLE of R107 where the write changes fr from 1 to 0. -/
def Obligations.WriteOfPmc0StoresFreezeAndOverflow : Prop :=
  ∀ (v : Word) (s : State), ∃ t : State,
    exec (.pmcWr0 v) s = .next t ∧ s.keepsAllButRegs t ∧ t.obs = Obs.silent ∧
    t.regs.pmc0.fr = v.getLsbD 0 ∧ t.regs.pmc0.overflow = v.extractLsb' 4 4 ∧
    (let kept := { s.regs with pmc0 := t.regs.pmc0 }
     let cleared := { kept with iearCaptured := false, pmd0 := { s.regs.pmd0 with v := false } }
     let reEnabled := s.regs.pmc0.fr = true ∧ v.getLsbD 0 = false
     (¬ reEnabled → t.regs = kept) ∧
     (reEnabled → (t.regs = kept ∨ t.regs = cleared) ∧
       (Config.iearClearOnEnable = .clear → t.regs = cleared) ∧ (Config.iearClearOnEnable = .keep → t.regs = kept)))

/-- R12, R62, R63. -/
def Obligations.Pmc1To3ReadZeroAndIgnoreWrites : Prop :=
  ∀ (v : Word) (s : State),
    (∀ i ∈ [Instr.pmcRd1, Instr.pmcRd2, Instr.pmcRd3],
      exec i s = .next { s with obs := { Obs.silent with result := some 0 } }) ∧
    (∀ i ∈ [Instr.pmcWr1 v, Instr.pmcWr2 v, Instr.pmcWr3 v], exec i s = .next { s with obs := Obs.silent })

/-- R64 and the request of R121: an overflow while monitoring is enabled. -/
def Obligations.OverflowSetsItsBitsAndFreezes : Prop :=
  ∀ (S : BitVec 4) (s : State), S ≠ 0 → s.regs.pmc0.fr = false → ∃ t : State,
    exec (.evOvf S) s = .next t ∧ s.keepsAllButRegs t ∧ t.draws = s.draws ∧
    t.regs = { s.regs with pmc0 := t.regs.pmc0 } ∧
    (∀ k < 4, t.regs.pmc0.overflow.getLsbD k = (s.regs.pmc0.overflow.getLsbD k || S.getLsbD k)) ∧
    (t.regs.pmc0.fr = true ↔ ∃ k < 4, S.getLsbD k = true ∧ s.env.oi.getLsbD k = true) ∧
    t.obs = { Obs.silent with pmiRequest := t.regs.pmc0.fr }

/-- R65: a frozen unit takes no overflow and no capture, by the spec's decision D5 (log entry 22). That such an event is a
step that changes nothing is the model's choice (log entry 11); the empty set is no operand of `EV.OVF` (R64). -/
def Obligations.FrozenUnitTakesNoOverflowAndNoCapture : Prop :=
  ∀ (S : BitVec 4) (line : BitVec 59) (lat : Nat) (s : State),
    (S ≠ 0 → s.regs.pmc0.fr = true → exec (.evOvf S) s = .next { s with obs := Obs.notTaken }) ∧
    (s.regs.pmc0.fr = true → exec (.evIearCapture line lat) s = .next { s with obs := Obs.notTaken }) ∧
    exec (.evOvf 0) s = .refused .emptyOverflowSet

/-- R66, first half, over every operation: hardware only sets bits of PMC[0]; a request for the interrupt comes only from
an overflow that freezes. That the request is an output is the spec's decision D12 (log entry 17), that no overflow lands
while frozen its decision D5 (log entry 22). -/
def Obligations.HardwareOnlySetsBitsOfPmc0 : Prop :=
  ∀ (i : Instr) (s t : State), i.agent = .hardware → exec i s = .next t →
    (s.regs.pmc0.fr = true → t.regs.pmc0.fr = true) ∧
    (∀ k, s.regs.pmc0.overflow.getLsbD k = true → t.regs.pmc0.overflow.getLsbD k = true) ∧
    (t.obs.pmiRequest = true → s.regs.pmc0.fr = false ∧ t.regs.pmc0.fr = true)

/-- R66, second half, over every step: only a software write of PMC[0] with bit 0 clear ends a freeze, by `PMC.WR 0` or by
`mov pmc[r3] = r2` with index 0 (the latter from general knowledge, log entry 14). -/
def Obligations.OnlyASoftwareWriteEndsAFreeze : Prop :=
  ∀ (s t : State), step s = .next t → s.regs.pmc0.fr = true → t.regs.pmc0.fr = false →
    ∃ (r : Request) (rest : List Request) (i : Instr), s.inbox = r :: rest ∧ decode r.image = .ok i ∧
      ((∃ v : Word, i = .pmcWr0 v ∧ v.getLsbD 0 = false) ∨
       (∃ r3 r2 qp, i = .movToPmc r3 r2 qp ∧ s.core.readGr r3 = 0 ∧ (s.core.readGr r2).getLsbD 0 = false))

/-- R53: what a read returns after a write of any value, for every register whose write mask the rule gives. -/
def Obligations.ReadAfterWriteIsTheWriteMasked : Prop :=
  ∀ (v : Word) (s t : State),
    (exec (.pmcWr0 v) s = .next t → exec .pmcRd0 t = .next { t with obs := { Obs.silent with result := some (v &&& 0xF1) } }) ∧
    (exec (.pmcWr1 v) s = .next t → exec .pmcRd1 t = .next { t with obs := { Obs.silent with result := some (v &&& 0) } }) ∧
    (exec (.pmcWr2 v) s = .next t → exec .pmcRd2 t = .next { t with obs := { Obs.silent with result := some (v &&& 0) } }) ∧
    (exec (.pmcWr3 v) s = .next t → exec .pmcRd3 t = .next { t with obs := { Obs.silent with result := some (v &&& 0) } }) ∧
    (exec (.pmcWr8 v) s = .next t →
      exec .pmcRd8 t = .next { t with obs := { Obs.silent with result := some (v &&& 0xFFFFFFFE3FFFFFF8) } }) ∧
    (exec (.pmcWr9 v) s = .next t →
      exec .pmcRd9 t = .next { t with obs := { Obs.silent with result := some (v &&& 0xFFFFFFFE3FFFFFF8) } }) ∧
    (exec (.pmcWr10 v) s = .next t →
      exec .pmcRd10 t = .next { t with obs := { Obs.silent with result := some (v &&& 0x030F00CF) } }) ∧
    (exec (.pmcWr13 v) s = .next t → exec .pmcRd13 t = .next { t with obs := { Obs.silent with result := some (v &&& 1) } })

/-! ### Instruction address range check -/

/-- R70. -/
def Obligations.ReadOfPmc13ReturnsTagAll : Prop :=
  ∀ s : State, ∃ r : Word,
    exec .pmcRd13 s = .next { s with obs := { Obs.silent with result := some r } } ∧
    r.getLsbD 0 = s.regs.ta ∧ r.extractLsb' 1 63 = 0

/-- R71: bit 0 is stored, the others are dropped. -/
def Obligations.WriteOfPmc13StoresTagAll : Prop :=
  ∀ (v : Word) (s : State),
    exec (.pmcWr13 v) s = .next { s with regs := { s.regs with ta := v.getLsbD 0 }, obs := Obs.silent }

/-- R72: the match of one IBR pair, bit by bit; the x-bit does not enter. -/
def Obligations.IbrMatchIsTheFormulaOfItsPair : Prop :=
  ∀ (p : IbrPair) (c : BitVec 2) (ip : Word),
    (ibrMatch p c ip = true ↔
      p.plm.getLsbD c.toNat = true ∧
      (∀ b ≤ 50, (p.addr.getLsbD b && p.mask.getLsbD b) = (ip.getLsbD b && p.mask.getLsbD b)) ∧
      (∀ b, 51 ≤ b → b ≤ 55 → (p.addr.getLsbD b && p.mask.getLsbD b) = (ip.getLsbD 50 && p.mask.getLsbD b)) ∧
      (∀ b, 56 ≤ b → b ≤ 60 → p.addr.getLsbD b = ip.getLsbD 50) ∧
      (∀ b, 61 ≤ b → b ≤ 63 → p.addr.getLsbD b = ip.getLsbD b)) ∧
    (∀ x : Bool, ibrMatch { p with x := x } c ip = ibrMatch p c ip)

/-- R41: both matchers see an address as if its bits 60:51 were copies of its bit 50, and a breakpoint address register
matches only where its bits 60:56 equal bit 50 of the address. -/
def Obligations.UnimplementedAddressBitsAreNotLookedAt : Prop :=
  ∀ (p : IbrPair) (q : DbrPair) (c : BitVec 2) (x y : Word),
    (∀ b ≤ 50, y.getLsbD b = x.getLsbD b) → (∀ b, 51 ≤ b → b ≤ 60 → y.getLsbD b = x.getLsbD 50) →
    (∀ b, 61 ≤ b → b ≤ 63 → y.getLsbD b = x.getLsbD b) →
    ibrMatch p c x = ibrMatch p c y ∧ dbrMatch q x = dbrMatch q y ∧
    (ibrMatch p c x = true → ∀ b, 56 ≤ b → b ≤ 60 → p.addr.getLsbD b = x.getLsbD 50) ∧
    (dbrMatch q x = true → ∀ b, 56 ≤ b → b ≤ 60 → q.addr.getLsbD b = x.getLsbD 50)

/-- R73: the tag of every fetch, for the value of PMC[13].ta that is seen. -/
def Obligations.RangeTagCombinesMatchesAndSwitches : Prop :=
  ∀ (itype : IType) (enco : BitVec 41) (s : State), ∃ t : State,
    exec (.evFetch itype enco) s = .next t ∧
    (t.obs.ibrRangeTag = some true ↔
      s.seen.ta = true ∨
      (s.env.psr.is = false ∧
       (∃ k : Fin 4, ibrMatch s.env.ibr[k] s.env.psr.cpl s.env.ip = true) ∧
       s.env.psr.db = false ∧ ∀ k : Fin 4, s.env.ibr[k].x = false)) ∧
    (t.obs.ibrRangeTag = some false ∨ t.obs.ibrRangeTag = some true)

/-- R74 (Table 6-10), for a unit whose tag functions see the present registers: with ta = 1 all instructions of both sets
are tagged, with ta = 0 no IA-32 instruction, and an IA-64 instruction only if it matches the IBR range. -/
def Obligations.RangeTagByInstructionSet : Prop :=
  ∀ (itype : IType) (enco : BitVec 41) (s : State), s.seesPresent → ∃ t u : State,
    exec (.evFetch itype enco) s = .next t ∧ exec .evFetch32 s = .next u ∧
    (s.regs.ta = true → t.obs.ibrRangeTag = some true ∧ u.obs.ibrRangeTag = some true) ∧
    (s.regs.ta = false → u.obs.ibrRangeTag = some false ∧
      (t.obs.ibrRangeTag = some true → ∃ k : Fin 4, ibrMatch s.env.ibr[k] s.env.psr.cpl s.env.ip = true)) ∧
    (s.regs.ta = false → s.env.psr.is = false → s.env.psr.db = false → (∀ k : Fin 4, s.env.ibr[k].x = false) →
      (∃ k : Fin 4, ibrMatch s.env.ibr[k] s.env.psr.cpl s.env.ip = true) → t.obs.ibrRangeTag = some true)

/-- R75: with PSR.db or an x-bit set and ta seen as 0 (log entry 7), no fetch of either set is tagged, whatever it is. -/
def Obligations.BreakpointUseSwitchesTheRangeOff : Prop :=
  ∀ (itype : IType) (enco : BitVec 41) (s : State), s.seen.ta = false →
    (s.env.psr.db = true ∨ ∃ k : Fin 4, s.env.ibr[k].x = true) → ∃ t u : State,
      exec (.evFetch itype enco) s = .next t ∧
      t.obs.ibrRangeTag = some false ∧ t.obs.tag8 = some false ∧ t.obs.tag9 = some false ∧
      exec .evFetch32 s = .next u ∧
      u.obs.ibrRangeTag = some false ∧ u.obs.tag8 = some false ∧ u.obs.tag9 = some false

/-! ### Opcode match -/

/-- R80. -/
def Obligations.ReadOfAnOpcodeMatchRegisterReturnsItsFields : Prop :=
  ∀ s : State, ∀ c ∈ [(Instr.pmcRd8, s.regs.pmc8), (Instr.pmcRd9, s.regs.pmc9)], ∃ r : Word,
    exec c.1 s = .next { s with obs := { Obs.silent with result := some r } } ∧
    r.extractLsb' 0 3 = 0 ∧ r.extractLsb' 3 27 = c.2.maskBits ∧ r.extractLsb' 30 3 = 0 ∧
    r.extractLsb' 33 27 = c.2.matchBits ∧ r.getLsbD 60 = c.2.b ∧ r.getLsbD 61 = c.2.f ∧ r.getLsbD 62 = c.2.i ∧
    r.getLsbD 63 = c.2.m

/-- R81: the two registers are independent. -/
def Obligations.WriteOfAnOpcodeMatchRegisterStoresItsFields : Prop :=
  ∀ (v : Word) (s : State), ∃ p : OpMatch,
    p.maskBits = v.extractLsb' 3 27 ∧ p.matchBits = v.extractLsb' 33 27 ∧ p.b = v.getLsbD 60 ∧ p.f = v.getLsbD 61 ∧
    p.i = v.getLsbD 62 ∧ p.m = v.getLsbD 63 ∧
    exec (.pmcWr8 v) s = .next { s with regs := { s.regs with pmc8 := p }, obs := Obs.silent } ∧
    exec (.pmcWr9 v) s = .next { s with regs := { s.regs with pmc9 := p }, obs := Obs.silent }

/-- R82. -/
def Obligations.TypeMatchReadsTheBitOfTheType : Prop :=
  ∀ (itype : IType) (r : OpMatch),
    imatch itype r = true ↔
      (itype = .M ∧ r.m = true) ∨ (itype = .I ∧ r.i = true) ∨ (itype = .F ∧ r.f = true) ∨ (itype = .B ∧ r.b = true)

/-- R83, both conjuncts, and the same in the bits of the register image that was written. -/
def Obligations.EncodingMatchComparesTheUnmaskedBits : Prop :=
  (∀ (enco : BitVec 41) (mt mk : BitVec 27),
    ematch enco mt mk = true ↔
      (∀ b, 27 ≤ b → b ≤ 40 → enco.getLsbD b = mt.getLsbD (b - 14) ∨ mk.getLsbD (b - 14) = true) ∧
      (∀ b ≤ 12, enco.getLsbD b = mt.getLsbD b ∨ mk.getLsbD b = true)) ∧
  (∀ (enco : BitVec 41) (v : Word),
    ematch enco (OpMatch.ofImage v).matchBits (OpMatch.ofImage v).maskBits = true ↔
      (∀ b, 27 ≤ b → b ≤ 40 → enco.getLsbD b = v.getLsbD (b + 19) ∨ v.getLsbD (b - 11) = true) ∧
      (∀ b ≤ 12, enco.getLsbD b = v.getLsbD (b + 33) ∨ v.getLsbD (b + 3) = true))

/-- R51: bits 40:27 and 12:0 of the encoding are matched, bits 26:13 are ignored: two encodings that agree on the former
match alike, and with no bit masked only such encodings match together. -/
def Obligations.EncodingIsMatchedInItsOuterBitsOnly : Prop :=
  ∀ (itype : IType) (e f : BitVec 41) (r : OpMatch),
    ((∀ b, b ≤ 12 ∨ 27 ≤ b → e.getLsbD b = f.getLsbD b) → opcodeMatch r itype e = opcodeMatch r itype f) ∧
    (r.maskBits = 0 → opcodeMatch r itype e = true → opcodeMatch r itype f = true →
      ∀ b, b ≤ 12 ∨ 27 ≤ b → e.getLsbD b = f.getLsbD b)

/-- R84: the match, and the recipe "all mifb and all mask bits should be set to one", from the write to the fetch. -/
def Obligations.MatchAllRecipeMatchesEveryInstruction : Prop :=
  ∀ (itype : IType) (enco : BitVec 41) (v : Word) (s : State),
    (∀ r : OpMatch, opcodeMatch r itype enco = (imatch itype r && ematch enco r.matchBits r.maskBits)) ∧
    (v.extractLsb' 60 4 = 0xF → v.extractLsb' 3 27 = 0x7FFFFFF → s.seesPresent → ∃ t u t' u' : State,
      exec (.pmcWr8 v) s = .next t ∧ exec (.evFetch itype enco) t = .next u ∧ u.obs.match8 = some true ∧
      exec (.pmcWr9 v) s = .next t' ∧ exec (.evFetch itype enco) t' = .next u' ∧ u'.obs.match9 = some true)

/-- R85, R86: the outputs of a fetch for the registers that are seen; nothing else changes. -/
def Obligations.FetchOutputsAreTheTags : Prop :=
  ∀ (itype : IType) (enco : BitVec 41) (s : State), ∃ range : Bool,
    range = (s.seen.ta || (!s.env.psr.is &&
      ((ibrMatch s.env.ibr[0] s.env.psr.cpl s.env.ip || ibrMatch s.env.ibr[1] s.env.psr.cpl s.env.ip ||
        ibrMatch s.env.ibr[2] s.env.psr.cpl s.env.ip || ibrMatch s.env.ibr[3] s.env.psr.cpl s.env.ip) &&
       !(s.env.psr.db || s.env.ibr[0].x || s.env.ibr[1].x || s.env.ibr[2].x || s.env.ibr[3].x)))) ∧
    exec (.evFetch itype enco) s = .next { s with obs := { Obs.silent with
      ibrRangeTag := some range,
      match8 := some (opcodeMatch s.seen.pmc8 itype enco),
      match9 := some (opcodeMatch s.seen.pmc9 itype enco),
      tag8 := some (opcodeMatch s.seen.pmc8 itype enco && range && !s.env.psr.is),
      tag9 := some (opcodeMatch s.seen.pmc9 itype enco && range && !s.env.psr.is) } }

/-- R89, for the value of PMC[13].ta that is seen: the IBRs, PSR.db and PSR.cpl are not consulted. -/
def Obligations.Ia32FetchIsTaggedByTagAllAlone : Prop :=
  ∀ s : State, exec .evFetch32 s = .next { s with obs := { Obs.silent with
    ibrRangeTag := some s.seen.ta, tag8 := some false, tag9 := some false } }

/-! ### When a register write is seen -/

/-- R48: a step sees the effect of every earlier step, where the tag functions see the present registers
(always so with SYNC_DELAY = 0). -/
def Obligations.ReferenceSemanticsSeesThePresentRegisters : Prop :=
  ∀ s : State, s.seesPresent ∨ Config.syncDelay = 0 → s.seen = ⟨s.regs.ta, s.regs.pmc8, s.regs.pmc9, s.regs.pt⟩

/-- R135: each register is seen at its present value or at one it had within the last SYNC_DELAY steps, and at its present
value once the last SYNC_DELAY steps have not changed it. -/
def Obligations.SeenValuesAreWithinTheSyncDelay : Prop :=
  ∀ s : State,
    (s.seen.ta = s.regs.ta ∨ s.seen.ta ∈ (s.past.take Config.syncDelay).map (·.ta)) ∧
    (s.seen.pmc8 = s.regs.pmc8 ∨ s.seen.pmc8 ∈ (s.past.take Config.syncDelay).map (·.pmc8)) ∧
    (s.seen.pmc9 = s.regs.pmc9 ∨ s.seen.pmc9 ∈ (s.past.take Config.syncDelay).map (·.pmc9)) ∧
    (s.seen.pt = s.regs.pt ∨ s.seen.pt ∈ (s.past.take Config.syncDelay).map (·.pt)) ∧
    ((∀ g ∈ s.past.take Config.syncDelay, g = ⟨s.regs.ta, s.regs.pmc8, s.regs.pmc9, s.regs.pt⟩) →
      s.seen = ⟨s.regs.ta, s.regs.pmc8, s.regs.pmc9, s.regs.pt⟩)

/-- R48 and R135, over two steps, whatever SYNC_DELAY and the lag are: a `PMC.WR 13` and the fetch after it. The fetch is
tagged by the new value, by the one before the write or by one remembered within the last SYNC_DELAY steps; by the new one
where it sees the present register (log entry 7). -/
def Obligations.FetchAfterWriteSeesTheNewTagAll : Prop :=
  ∀ (s : State) (w f : Request) (rest : List Request) (v : Word) (itype : IType) (enco : BitVec 41),
    s.inbox = w :: f :: rest → decode w.image = .ok (.pmcWr13 v) → decode f.image = .ok (.evFetch itype enco) →
    ∃ (t : State) (ta : Bool),
      Host.Core.run core 2 s = .next t ∧ t.regs.ta = v.getLsbD 0 ∧ t.obs.ibrRangeTag = some (ibrRangeTag ta f.env) ∧
      (ta = v.getLsbD 0 ∨ ta ∈ ((s.tagRegs :: s.past).take Config.syncDelay).map (·.ta)) ∧
      (f.env.lag.ta = 0 ∨ Config.syncDelay = 0 → ta = v.getLsbD 0)

/-- The tag functions depend on the tag registers, their record within SYNC_DELAY (log entry 7) and the inputs alone: two
states that agree on those show the same tags, whatever PMC[0], PMC[10] and the PMDs hold (R65, R108). States that see the
present registers need not agree on the record. -/
def Obligations.TagsDependOnTagRegistersRecordAndInputsAlone : Prop :=
  ∀ (i : Instr) (s u : State), i.isTagEvent = true → s.tagRegs = u.tagRegs → s.env = u.env →
    s.past.take Config.syncDelay = u.past.take Config.syncDelay ∨ s.seesPresent →
    ∃ o : Obs, exec i s = .next { s with obs := o } ∧ exec i u = .next { u with obs := o }

/-! ### Data address range check -/

/-- R90. -/
def Obligations.PassTagsIsThePtBitOfPmc11 : Prop :=
  ∀ (v : Word) (s : State),
    exec (.pmcWr11 v) s = .next { s with regs := { s.regs with pt := v.getLsbD Config.ptBit.val }, obs := Obs.silent } ∧
    (BitVec.twoPow 64 Config.ptBit.val).getLsbD Config.ptBit.val = true ∧ (0 : Word).getLsbD Config.ptBit.val = false ∧
    ∃ r : Word,
      exec .pmcRd11 s = .next { s with draws := s.draws + 1, obs := { Obs.silent with result := some r } } ∧
      r.getLsbD Config.ptBit.val = s.regs.pt ∧
      ∀ b < 64, b ≠ Config.ptBit.val → r.getLsbD b = (Config.freeValue s.draws).getLsbD b

/-- R91: the match of one DBR pair, bit by bit; r, w and plm are ignored. -/
def Obligations.DbrMatchIsTheFormulaOfItsPair : Prop :=
  ∀ (p : DbrPair) (addr : Word),
    (dbrMatch p addr = true ↔
      (∀ b ≤ 50, (p.addr.getLsbD b && p.mask.getLsbD b) = (addr.getLsbD b && p.mask.getLsbD b)) ∧
      (∀ b, 51 ≤ b → b ≤ 55 → (p.addr.getLsbD b && p.mask.getLsbD b) = (addr.getLsbD 50 && p.mask.getLsbD b)) ∧
      (∀ b, 56 ≤ b → b ≤ 60 → p.addr.getLsbD b = addr.getLsbD 50) ∧
      (∀ b, 61 ≤ b → b ≤ 63 → p.addr.getLsbD b = addr.getLsbD b)) ∧
    (∀ (plm : BitVec 4) (r w : Bool), dbrMatch { p with plm := plm, r := r, w := w } addr = dbrMatch p addr)

/-- R92, R93, R94, for the value of PMC[11].pt that is seen; nothing else changes. -/
def Obligations.MemoryReferenceIsTaggedByRangeAndTag8 : Prop :=
  ∀ (addr : Word) (tag8 : Bool) (s : State), ∃ m : Bool,
    m = ((dbrMatch s.env.dbr[0] addr || dbrMatch s.env.dbr[1] addr || dbrMatch s.env.dbr[2] addr ||
          dbrMatch s.env.dbr[3] addr) && !s.env.psr.db) ∧
    exec (.evMemref addr tag8) s = .next { s with obs := { Obs.silent with
      dbrRangeMatch := some m, dbrRangeTag := some (tag8 && (s.seen.pt || m)) } }

/-- R95, for the value of PMC[11].pt that is seen: with pt = 1 the tag is tag8, with pt = 0 the range match alone. -/
def Obligations.RseAndVhptReferencesAreTaggedByRangeOrTag8 : Prop :=
  ∀ (addr : Word) (tag8 : Bool) (s : State), ∃ tag : Bool,
    exec (.evRseVhpt addr tag8) s = .next { s with obs := { Obs.silent with rangeTag := some tag } } ∧
    (s.seen.pt = true → tag = tag8) ∧
    (s.seen.pt = false →
      (tag = true ↔ s.env.psr.db = false ∧ ∃ k : Fin 4, dbrMatch s.env.dbr[k] addr = true))

/-- C4: the two classes of reference differ exactly where pt is seen as 0 (log entry 7), the address is in range and tag8
is 0. -/
def Obligations.ReferenceClassesDifferOnlyInRangeWithoutTag8 : Prop :=
  ∀ (addr : Word) (tag8 : Bool) (s : State), ∃ (t u : State) (x y m : Bool),
    exec (.evMemref addr tag8) s = .next t ∧ exec (.evRseVhpt addr tag8) s = .next u ∧
    t.obs.dbrRangeTag = some x ∧ u.obs.rangeTag = some y ∧ t.obs.dbrRangeMatch = some m ∧
    (x ≠ y ↔ s.seen.pt = false ∧ m = true ∧ tag8 = false)

/-! ### Instruction EAR -/

/-- R100. -/
def Obligations.ReadOfPmc10ReturnsItsFields : Prop :=
  ∀ s : State, ∃ r : Word,
    exec .pmcRd10 s = .next { s with obs := { Obs.silent with result := some r } } ∧
    r.extractLsb' 0 4 = s.regs.pmc10.plm ∧ r.extractLsb' 4 2 = 0 ∧ r.getLsbD 6 = s.regs.pmc10.pm ∧
    r.getLsbD 7 = s.regs.pmc10.tlb ∧ r.extractLsb' 8 8 = 0 ∧ r.extractLsb' 16 4 = s.regs.pmc10.umask ∧
    r.extractLsb' 20 4 = 0 ∧ r.extractLsb' 24 2 = s.regs.pmc10.ism ∧ r.extractLsb' 26 38 = 0

/-- R101: every value of every field is stored, the ignored bits are dropped. -/
def Obligations.WriteOfPmc10StoresItsFields : Prop :=
  ∀ (v : Word) (s : State), ∃ p : Pmc10,
    p.plm = v.extractLsb' 0 4 ∧ p.pm = v.getLsbD 6 ∧ p.tlb = v.getLsbD 7 ∧ p.umask = v.extractLsb' 16 4 ∧
    p.ism = v.extractLsb' 24 2 ∧
    exec (.pmcWr10 v) s = .next { s with regs := { s.regs with pmc10 := p }, obs := Obs.silent }

/-- R103, R104: the event completes in every state. A capture happens exactly where the event is enabled (not frozen, cache
mode, the threshold exceeded, qualified) and the free choice of D14 takes it; it writes the line, the valid bit,
`iear_captured` and the latency in one step, and leaves PMD[0].tlb free, and the latency too where it does not fit.
That an event that is not enabled is a step that changes no register is the model's choice (log entry 11). -/
def Obligations.QualifiedMissIsCapturedOrDropped : Prop :=
  ∀ (line : BitVec 59) (lat : Nat) (s : State), ∃ t : State,
    exec (.evIearCapture line lat) s = .next t ∧ s.keepsAllButRegs t ∧
    (let enabled := s.regs.pmc0.fr = false ∧ s.regs.pmc10.tlb = false ∧ Config.iearThreshold s.regs.pmc10.umask < lat ∧
       Config.iearQualify s.regs.pmc10.plm s.regs.pmc10.pm s.regs.pmc10.ism
         s.env.psr.is s.env.psr.db s.env.psr.cpl = true
     (t.obs.taken = true ↔ enabled) ∧
     (enabled ∧ (Config.freeValue s.draws).getLsbD 0 = true →
       ∃ (x : Bool) (l : BitVec 12), (lat < 4096 → l.toNat = lat) ∧
         t.regs = { s.regs with pmd0 := ⟨true, x, line⟩, pmd1 := ⟨l⟩, iearCaptured := true }) ∧
     (¬ (enabled ∧ (Config.freeValue s.draws).getLsbD 0 = true) → t.regs = s.regs))

/-- R103, R104: a miss that is frozen, in TLB mode, not longer than the threshold, or not qualified is not captured. That
such an event is a step that changes nothing is the model's choice (log entry 11). The frozen case is the spec's decision D5
(log entry 22), that of a latency equal to the threshold its decision D25 (log entry 9). -/
def Obligations.UnqualifiedMissIsNotCaptured : Prop :=
  ∀ (line : BitVec 59) (lat : Nat) (s : State),
    (s.regs.pmc0.fr = true ∨ s.regs.pmc10.tlb = true ∨ lat ≤ Config.iearThreshold s.regs.pmc10.umask ∨
     Config.iearQualify s.regs.pmc10.plm s.regs.pmc10.pm s.regs.pmc10.ism s.env.psr.is s.env.psr.db s.env.psr.cpl = false) →
    exec (.evIearCapture line lat) s = .next { s with obs := Obs.notTaken }

/-- R105: the three cases of a read of PMD[0]. The free word is whatever the next draw is. -/
def Obligations.ReadOfPmd0ReportsTheCapturedLine : Prop :=
  ∀ s : State,
    (s.regs.pmc0.fr = false → exec .pmdRd0 s =
      .next { s with draws := s.draws + 1, obs := { Obs.silent with result := some (Config.freeValue s.draws) } }) ∧
    (s.regs.pmc0.fr = true → s.regs.pmc10.tlb = true → exec .pmdRd0 s = .refused .tlbModeNotInSource) ∧
    (s.regs.pmc0.fr = true → s.regs.pmc10.tlb = false → ∃ r : Word,
      exec .pmdRd0 s = .next { s with draws := s.draws + 1, obs := { Obs.silent with result := some r } } ∧
      r.getLsbD 0 = s.regs.iearCaptured ∧ r.extractLsb' 2 3 = 0 ∧
      r.getLsbD 1 = (Config.freeValue s.draws).getLsbD 1 ∧
      r.extractLsb' 5 59 = (if s.regs.iearCaptured then s.regs.pmd0.line else (Config.freeValue s.draws).extractLsb' 5 59))

/-- R106: the three cases of a read of PMD[1]. -/
def Obligations.ReadOfPmd1ReportsTheLatency : Prop :=
  ∀ s : State,
    (s.regs.pmc0.fr = false → exec .pmdRd1 s =
      .next { s with draws := s.draws + 1, obs := { Obs.silent with result := some (Config.freeValue s.draws) } }) ∧
    (s.regs.pmc0.fr = true → s.regs.pmc10.tlb = true → exec .pmdRd1 s = .refused .tlbModeNotInSource) ∧
    (s.regs.pmc0.fr = true → s.regs.pmc10.tlb = false → ∃ r : Word,
      exec .pmdRd1 s = .next { s with draws := s.draws + 1, obs := { Obs.silent with result := some r } } ∧
      r.extractLsb' 12 52 = 0 ∧ (s.regs.iearCaptured = true → r.extractLsb' 0 12 = s.regs.pmd1.latency) ∧
      (s.regs.iearCaptured = false → r.extractLsb' 0 12 = (Config.freeValue s.draws).extractLsb' 0 12))

/-- R110: PMD[2], PMD[3] and PMD[17]: any value while not frozen, refused while frozen. -/
def Obligations.ReadOfTheDataEarIsFreeOrRefused : Prop :=
  ∀ s : State, ∀ i ∈ [Instr.pmdRd2, Instr.pmdRd3, Instr.pmdRd17],
    (s.regs.pmc0.fr = false → exec i s =
      .next { s with draws := s.draws + 1, obs := { Obs.silent with result := some (Config.freeValue s.draws) } }) ∧
    (s.regs.pmc0.fr = true → exec i s = .refused .dataEarLayoutNotInSource)

/-- A capture that an overflow then freezes is what software reads: bits 63:5 of PMD[0] and bits 11:0 of PMD[1] report the
line and the latency of one and the same miss, for whatever the capture drew (R103, R105, R106). -/
def Obligations.FrozenReadsReportOneMiss : Prop :=
  ∀ (line : BitVec 59) (lat : Nat) (drawn : Word) (S : BitVec 4) (r : Regs) (c f : State),
    c.regs = r.capture line lat drawn → lat < 4096 → r.pmc10.tlb = false →
    exec (.evOvf S) c = .next f → f.regs.pmc0.fr = true → ∃ (t u : State) (x y : Word),
      exec .pmdRd0 f = .next t ∧ t.obs.result = some x ∧ x.getLsbD 0 = true ∧ x.extractLsb' 5 59 = line ∧
      exec .pmdRd1 f = .next u ∧ u.obs.result = some y ∧ (y.extractLsb' 0 12).toNat = lat

/-! ### Whole-machine rules -/

/-- What no operation changes: the inputs, the operations to come, the record of earlier steps; and the general and
predicate registers, but for the target of a `mov` that reads. -/
def Obligations.OperationsKeepInputsAndCoreRegisters : Prop :=
  ∀ (i : Instr) (s t : State), exec i s = .next t →
    s.keepsInputs t ∧ t.core.pr = s.core.pr ∧ s.draws ≤ t.draws ∧
    (∀ r : BitVec 7, t.core.readGr r ≠ s.core.readGr r →
      ∃ r3 qp, i = .movFromPmc r r3 qp ∨ i = .movFromPmd r r3 qp)

/-- A read changes no register of the unit (R60, R62, R70, R80, R100, R105, R106, R110), nor does an event whose outputs
are tags (R86, R89, R94, R95). The `mov` reads are taken in, whose meaning is general knowledge (G1, log entry 14). -/
def Obligations.ReadsAndTagEventsChangeNoRegister : Prop :=
  ∀ (i : Instr) (s t : State), i.isRead = true ∨ i.isTagEvent = true → exec i s = .next t → t.regs = s.regs

/-- R4: hardware writes no configuration register, and software writes no data register but for the valid bit and
`iear_captured`, which a write that re-enables collection may clear (R107, log entry 10). The `mov` rows are taken in, which
are general knowledge (G1, log entry 14). -/
def Obligations.EachAgentWritesItsOwnRegisters : Prop :=
  ∀ (i : Instr) (s t : State), exec i s = .next t →
    (i.agent = .hardware → t.regs.pmc8 = s.regs.pmc8 ∧ t.regs.pmc9 = s.regs.pmc9 ∧ t.regs.pmc10 = s.regs.pmc10 ∧
      t.regs.pt = s.regs.pt ∧ t.regs.ta = s.regs.ta) ∧
    (i.agent = .software → t.regs.pmd0.line = s.regs.pmd0.line ∧ t.regs.pmd0.tlb = s.regs.pmd0.tlb ∧
      t.regs.pmd1 = s.regs.pmd1 ∧ (t.regs.iearCaptured = true → s.regs.iearCaptured = true))

/-- R26: in every step, from every state in which the valid bit reports `iear_captured`, it still does. That a re-enabling
write clears both or neither is log entry 10. The `mov` rows are taken in (log entry 14). -/
def Obligations.StepKeepsTheValidBitEqualToIearCaptured : Prop :=
  ∀ s t : State, s.captureConsistent → step s = .next t → t.captureConsistent

/-- The invariant at reset, where both bits are the model's choice (log entry 3). -/
def Obligations.ResetHasTheValidBitEqualToIearCaptured : Prop := State.reset.captureConsistent

/-- R65, R107: over every step that begins and ends frozen, the event address data registers are stable. That no capture in
flight lands after the freeze is the spec's decision D5 (log entry 22). The `mov` rows are taken in (log entry 14). -/
def Obligations.FrozenDataRegistersAreStable : Prop :=
  ∀ s t : State, step s = .next t → s.regs.pmc0.fr = true → t.regs.pmc0.fr = true →
    t.regs.pmd0 = s.regs.pmd0 ∧ t.regs.pmd1 = s.regs.pmd1 ∧ t.regs.iearCaptured = s.regs.iearCaptured

/-- R29, R130: PMC[13].ta is 1 after reset (the parameter RESET_TA at its default, log entry 4), so every instruction
fetched before a write is tagged by the range check, whatever its address. -/
def Obligations.ResetTagsEveryInstruction : Prop :=
  State.reset.regs.ta = true ∧
  ∀ (itype : IType) (enco : BitVec 41) (e : Env), ∃ t u : State,
    exec (.evFetch itype enco) { State.reset with env := e } = .next t ∧ t.obs.ibrRangeTag = some true ∧
    exec .evFetch32 { State.reset with env := e } = .next u ∧ u.obs.ibrRangeTag = some true

/-! ### The `mov` rows (the spec author's general knowledge, log entries 14 and 15; whatever PSR.is holds, log entry 29) -/

/-- `mov pmc[r3] = r2`: under a true predicate and at privilege level 0 it performs the write its index names; under a false
predicate it has no effect; an index without a rule is refused; another level is stopped. -/
def Obligations.MovToPmcPerformsTheIndexedWrite : Prop :=
  ∀ (r3 r2 : BitVec 7) (qp : BitVec 6) (s : State),
    (s.core.readPr qp = false → exec (.movToPmc r3 r2 qp) s = .next { s with obs := Obs.silent }) ∧
    (s.core.readPr qp = true → s.env.psr.cpl ≠ 0 → exec (.movToPmc r3 r2 qp) s = .fault .privilegedOperation) ∧
    (s.core.readPr qp = true → s.env.psr.cpl = 0 →
      (∀ c ∈ [(0, Instr.pmcWr0 (s.core.readGr r2)), (1, Instr.pmcWr1 (s.core.readGr r2)),
              (2, Instr.pmcWr2 (s.core.readGr r2)), (3, Instr.pmcWr3 (s.core.readGr r2)),
              (8, Instr.pmcWr8 (s.core.readGr r2)), (9, Instr.pmcWr9 (s.core.readGr r2)),
              (10, Instr.pmcWr10 (s.core.readGr r2)), (11, Instr.pmcWr11 (s.core.readGr r2)),
              (13, Instr.pmcWr13 (s.core.readGr r2))],
        (s.core.readGr r3).toNat = c.1 →
          exec (.movToPmc r3 r2 qp) s = exec c.2 s ∧ completes (.movToPmc r3 r2 qp) s) ∧
      ((s.core.readGr r3).toNat ∉ [0, 1, 2, 3, 8, 9, 10, 11, 13] →
        exec (.movToPmc r3 r2 qp) s = .refused (.noRuleForRegister (s.core.readGr r3).toNat)))

/-- `mov pmd[r3] = r2`: R56 (b) gives no write of a PMD, so under a true predicate it is refused (stopped by level first). -/
def Obligations.MovToPmdIsRefusedUnlessPredicatedOff : Prop :=
  ∀ (r3 r2 : BitVec 7) (qp : BitVec 6) (s : State),
    (s.core.readPr qp = false → exec (.movToPmd r3 r2 qp) s = .next { s with obs := Obs.silent }) ∧
    (s.core.readPr qp = true → s.env.psr.cpl ≠ 0 → exec (.movToPmd r3 r2 qp) s = .fault .privilegedOperation) ∧
    (s.core.readPr qp = true → s.env.psr.cpl = 0 →
      exec (.movToPmd r3 r2 qp) s = .refused (.pmdWriteNotInSource (s.core.readGr r3).toNat))

/-- `mov r1 = pmc[r3]`: the target takes what the indexed read returns, and no other general register changes. -/
def Obligations.MovFromPmcTakesTheIndexedRead : Prop :=
  ∀ (r1 r3 : BitVec 7) (qp : BitVec 6) (s : State),
    (s.core.readPr qp = false → exec (.movFromPmc r1 r3 qp) s = .next { s with obs := Obs.silent }) ∧
    (s.core.readPr qp = true → r1 = 0 → exec (.movFromPmc r1 r3 qp) s = .fault .targetIsRegister0) ∧
    (s.core.readPr qp = true → r1 ≠ 0 → s.env.psr.cpl ≠ 0 →
      exec (.movFromPmc r1 r3 qp) s = .fault .privilegedOperation) ∧
    (s.core.readPr qp = true → r1 ≠ 0 → s.env.psr.cpl = 0 →
      (∀ c ∈ [(0, Instr.pmcRd0), (1, Instr.pmcRd1), (2, Instr.pmcRd2), (3, Instr.pmcRd3), (8, Instr.pmcRd8),
              (9, Instr.pmcRd9), (10, Instr.pmcRd10), (11, Instr.pmcRd11), (13, Instr.pmcRd13)],
        (s.core.readGr r3).toNat = c.1 → ∃ (t u : State) (v : Word),
          exec c.2 s = .next t ∧ t.obs.result = some v ∧ exec (.movFromPmc r1 r3 qp) s = .next u ∧
          u.regs = s.regs ∧ s.keepsInputs u ∧ u.core.pr = s.core.pr ∧ u.core.readGr r1 = v ∧
          ∀ r : BitVec 7, r ≠ r1 → u.core.readGr r = s.core.readGr r) ∧
      ((s.core.readGr r3).toNat ∉ [0, 1, 2, 3, 8, 9, 10, 11, 13] →
        exec (.movFromPmc r1 r3 qp) s = .refused (.noRuleForRegister (s.core.readGr r3).toNat)))

/-- `mov r1 = pmd[r3]`: at privilege level 0, and at another level where the read is allowed, the target takes what the
indexed read returns, where that read completes, and the `mov` stops as the read stops; where the read is not allowed the
target takes a free value. -/
def Obligations.MovFromPmdTakesTheIndexedRead : Prop :=
  ∀ (r1 r3 : BitVec 7) (qp : BitVec 6) (s : State),
    (s.core.readPr qp = false → exec (.movFromPmd r1 r3 qp) s = .next { s with obs := Obs.silent }) ∧
    (s.core.readPr qp = true → r1 = 0 → exec (.movFromPmd r1 r3 qp) s = .fault .targetIsRegister0) ∧
    (s.core.readPr qp = true → r1 ≠ 0 →
      s.env.psr.cpl = 0 ∨ Config.pmdReadAllowed s.env.psr.cpl s.env.psr.sp s.draws = true →
      (∀ c ∈ [(0, Instr.pmdRd0), (1, Instr.pmdRd1), (2, Instr.pmdRd2), (3, Instr.pmdRd3), (17, Instr.pmdRd17)],
        (s.core.readGr r3).toNat = c.1 →
          (∀ f, exec c.2 s = .refused f → exec (.movFromPmd r1 r3 qp) s = .refused f) ∧
          (s.regs.pmc0.fr = false ∨ (c.1 ≤ 1 ∧ s.regs.pmc10.tlb = false) → ∃ (t u : State) (v : Word),
            exec c.2 s = .next t ∧ t.obs.result = some v ∧ exec (.movFromPmd r1 r3 qp) s = .next u ∧
            u.regs = s.regs ∧ s.keepsInputs u ∧ u.core.pr = s.core.pr ∧ u.core.readGr r1 = v ∧
            ∀ r : BitVec 7, r ≠ r1 → u.core.readGr r = s.core.readGr r)) ∧
      ((s.core.readGr r3).toNat ∉ [0, 1, 2, 3, 17] →
        exec (.movFromPmd r1 r3 qp) s = .refused (.noRuleForRegister (s.core.readGr r3).toNat))) ∧
    (s.core.readPr qp = true → r1 ≠ 0 → s.env.psr.cpl ≠ 0 →
      Config.pmdReadAllowed s.env.psr.cpl s.env.psr.sp s.draws = false →
      ∃ u : State, exec (.movFromPmd r1 r3 qp) s = .next u ∧ u.regs = s.regs ∧
        u.core.readGr r1 = Config.freeValue s.draws ∧ ∀ r : BitVec 7, r ≠ r1 → u.core.readGr r = s.core.readGr r)
end

