-- ==== Sys2Proof/Laws/Bits.lean ====
section
/-! SUPPORT. The bounded conjunction of 00_scope.md section 6.1 and the matches made of it, in their logical form. -/

namespace Sys2Proof.Machine

theorem allBits_iff (lo hi : Nat) (p : Nat → Bool) :
    allBits lo hi p = true ↔ ∀ b, lo ≤ b → b ≤ hi → p b = true := by
  simp only [allBits, List.all_eq_true, List.mem_range'_1]
  constructor
  · intro h b h1 h2
    exact h b ⟨h1, by omega⟩
  · intro h b hb
    exact h b hb.1 (by omega)

/-- A bounded conjunction reads only the bits of its range. -/
theorem allBits_congr {lo hi : Nat} {p q : Nat → Bool} (h : ∀ b, lo ≤ b → b ≤ hi → p b = q b) :
    allBits lo hi p = allBits lo hi q := by
  rw [Bool.eq_iff_iff, allBits_iff, allBits_iff]
  exact forall_congr' fun b => forall_congr' fun h1 => forall_congr' fun h2 => by rw [h b h1 h2]

theorem addrMatch_iff (a : Word) (k : BitVec 56) (x : Word) :
    addrMatch a k x = true ↔
      (∀ b, 0 ≤ b → b ≤ 50 → (bit a b && bit k b) = (bit x b && bit k b)) ∧
      (∀ b, 51 ≤ b → b ≤ 55 → (bit a b && bit k b) = (bit x 50 && bit k b)) ∧
      (∀ b, 56 ≤ b → b ≤ 60 → bit a b = bit x 50) ∧
      (∀ b, 61 ≤ b → b ≤ 63 → bit a b = bit x b) := by
  simp only [addrMatch, Bool.and_eq_true, allBits_iff, beq_iff_eq, and_assoc]

/-- An address is read in bits 50:0 and 63:61 alone. -/
theorem addrMatch_congr (a : Word) (k : BitVec 56) {x y : Word} (hlow : ∀ b, b ≤ 50 → bit x b = bit y b)
    (hhigh : ∀ b, 61 ≤ b → b ≤ 63 → bit x b = bit y b) : addrMatch a k x = addrMatch a k y := by
  have h50 := hlow 50 (Nat.le_refl _)
  unfold addrMatch
  congr 1
  · congr 1
    · congr 1
      · exact allBits_congr fun b _ h => by rw [hlow b h]
      · exact allBits_congr fun b _ _ => by rw [h50]
    · exact allBits_congr fun b _ _ => by rw [h50]
  · exact allBits_congr fun b h1 h2 => by rw [hhigh b h1 h2]

theorem ematch_iff (enco : BitVec 41) (mt mk : BitVec 27) :
    ematch enco mt mk = true ↔
      (∀ b, 27 ≤ b → b ≤ 40 → bit enco b = bit mt (b - 14) ∨ bit mk (b - 14) = true) ∧
      (∀ b, 0 ≤ b → b ≤ 12 → bit enco b = bit mt b ∨ bit mk b = true) := by
  simp only [ematch, Bool.and_eq_true, allBits_iff, Bool.or_eq_true, beq_iff_eq]

/-- Some counter of the set interrupts, bit by bit. -/
theorem someInterrupting_iff (S oi : BitVec 4) :
    someInterrupting S oi = true ↔ ∃ k < 4, S.getLsbD k = true ∧ oi.getLsbD k = true := by
  simp only [someInterrupting, bne_iff_ne, ne_eq]
  constructor
  · intro h
    by_contra hn
    apply h
    ext k hk
    by_cases hS : S.getLsbD k = true
    · by_cases ho : oi.getLsbD k = true
      · exact absurd ⟨k, hk, hS, ho⟩ hn
      · simp [← BitVec.getLsbD_eq_getElem, ho]
    · simp [← BitVec.getLsbD_eq_getElem, hS]
  · rintro ⟨k, _, hS, ho⟩ h
    have := congrArg (fun v => BitVec.getLsbD v k) h
    simp [hS, ho] at this

end Sys2Proof.Machine
end

