-- ==== Sys2Proof/Laws/Encoding.lean ====
section
/-! SUPPORT. The fields of an encoded syllable and of the number that carries an image. -/

namespace Sys2Proof

theorem encodeM42_fields (x6 : BitVec 6) (r3 r2 : BitVec 7) (qp : BitVec 6) :
    syllableKey (encodeM42 x6 r3 r2 qp) = (1, 0#3 ++ x6) ∧ field (encodeM42 x6 r3 r2 qp) 20 7 = r3 ∧
    field (encodeM42 x6 r3 r2 qp) 13 7 = r2 ∧ field (encodeM42 x6 r3 r2 qp) 0 6 = qp := by
  refine ⟨Prod.ext ?_ ?_, ?_, ?_, ?_⟩ <;>
    (apply BitVec.eq_of_getLsbD_eq
     intro i hi
     simp only [syllableKey, field, encodeM42, BitVec.getLsbD_extractLsb', BitVec.getLsbD_append, BitVec.getLsbD_zero]
     grind)

theorem encodeM43_fields (x6 : BitVec 6) (r1 r3 : BitVec 7) (qp : BitVec 6) :
    syllableKey (encodeM43 x6 r1 r3 qp) = (1, 0#3 ++ x6) ∧ field (encodeM43 x6 r1 r3 qp) 20 7 = r3 ∧
    field (encodeM43 x6 r1 r3 qp) 6 7 = r1 ∧ field (encodeM43 x6 r1 r3 qp) 0 6 = qp := by
  refine ⟨Prod.ext ?_ ?_, ?_, ?_, ?_⟩ <;>
    (apply BitVec.eq_of_getLsbD_eq
     intro i hi
     simp only [syllableKey, field, encodeM43, BitVec.getLsbD_extractLsb', BitVec.getLsbD_append, BitVec.getLsbD_zero]
     grind)

/-- The number that carries an image determines it. -/
theorem ofNat_toNat (m : Image) : Image.ofNat m.toNat = m := by
  obtain ⟨cls, low, a, b⟩ := m
  have h1 := low.isLt; have h2 := cls.isLt; have h3 := a.isLt
  simp only [Image.ofNat, Image.toNat, Image.mk.injEq, ← BitVec.toNat_inj, BitVec.toNat_ofNat, Nat.shiftRight_eq_div_pow]
  refine ⟨?_, ?_, ?_, ?_⟩ <;> omega

/-- The number that carries an image has 112 bits and those of its unbounded operand. -/
theorem toNat_lt {m : Image} {k : Nat} (h : m.b < 2 ^ k) : m.toNat < 2 ^ (112 + k) := by
  obtain ⟨cls, low, a, b⟩ := m
  have h1 := low.isLt; have h2 := cls.isLt; have h3 := a.isLt
  simp only [Image.toNat, Nat.pow_add] at *
  omega

/-- The unbounded operand of an operation's image is 0, but for the latency of a capture. -/
theorem encode_b_lt {i : Instr} {k : Nat} (h : ∀ line lat, i = .evIearCapture line lat → lat < 2 ^ k) :
    (encode i).b < 2 ^ k := by
  cases i
  case evIearCapture l n => exact h l n rfl
  all_goals exact Nat.two_pow_pos k

end Sys2Proof
end

