-- ==== Sys2Proof/Laws/Images.lean ====
section
/-! SUPPORT. Each register image, bit by bit. -/

namespace Sys2Proof.Machine

theorem pmc0_image_bit (p : Pmc0) (b : Nat) :
    p.image.getLsbD b = if b = 0 then p.fr else if 4 ≤ b ∧ b < 8 then p.overflow.getLsbD (b - 4) else false := by
  simp only [Pmc0.image, BitVec.getLsbD_append, BitVec.getLsbD_zero, BitVec.getLsbD_ofBool]
  grind

theorem opMatch_image_bit (p : OpMatch) (b : Nat) :
    p.image.getLsbD b =
      if b < 3 then false else if b < 30 then p.maskBits.getLsbD (b - 3) else if b < 33 then false
      else if b < 60 then p.matchBits.getLsbD (b - 33) else if b = 60 then p.b else if b = 61 then p.f
      else if b = 62 then p.i else if b = 63 then p.m else false := by
  simp only [OpMatch.image, BitVec.getLsbD_append, BitVec.getLsbD_zero, BitVec.getLsbD_ofBool]
  by_cases h63 : b = 63
  · subst h63; simp
  · grind (splits := 20)

theorem pmc10_image_bit (p : Pmc10) (b : Nat) :
    p.image.getLsbD b =
      if b < 4 then p.plm.getLsbD b else if b < 6 then false else if b = 6 then p.pm else if b = 7 then p.tlb
      else if b < 16 then false else if b < 20 then p.umask.getLsbD (b - 16) else if b < 24 then false
      else if b < 26 then p.ism.getLsbD (b - 24) else false := by
  simp only [Pmc10.image, BitVec.getLsbD_append, BitVec.getLsbD_zero, BitVec.getLsbD_ofBool]
  grind (splits := 20)

theorem pmc13_image_bit (ta : Bool) (b : Nat) : (pmc13Image ta).getLsbD b = if b = 0 then ta else false := by
  simp only [pmc13Image, BitVec.getLsbD_append, BitVec.getLsbD_zero, BitVec.getLsbD_ofBool]
  grind

theorem pmc11_image_pt (pt : Bool) (drawn : Word) : (pmc11Image pt drawn).getLsbD Config.ptBit.val = pt := by
  have h := Config.ptBit.isLt
  cases pt <;> simp [pmc11Image, h]

theorem pmc11_image_other (pt : Bool) (drawn : Word) {b : Nat} (hb : b < 64) (hne : b ≠ Config.ptBit.val) :
    (pmc11Image pt drawn).getLsbD b = drawn.getLsbD b := by
  cases pt <;>
    simp only [pmc11Image, BitVec.getLsbD_or, BitVec.getLsbD_and, BitVec.getLsbD_not, BitVec.getLsbD_twoPow] <;> grind

theorem pmd0_image_bit (r : Regs) (drawn : Word) {b : Nat} (hb : b < 64) :
    (pmd0Image r drawn).getLsbD b =
      if b = 0 then r.iearCaptured else if b = 1 then drawn.getLsbD 1 else if b < 5 then false
      else if r.iearCaptured then r.pmd0.line.getLsbD (b - 5) else drawn.getLsbD b := by
  simp only [pmd0Image, BitVec.getLsbD_append, BitVec.getLsbD_zero, BitVec.getLsbD_ofBool]
  grind

theorem pmd1_image_bit (r : Regs) (drawn : Word) (b : Nat) :
    (pmd1Image r drawn).getLsbD b =
      if b < 12 then (if r.iearCaptured then r.pmd1.latency.getLsbD b else drawn.getLsbD b) else false := by
  simp only [pmd1Image, BitVec.getLsbD_append, BitVec.getLsbD_zero]
  grind

/-- A latency that fits is stored as it is. -/
theorem capturedLatency_fits {lat : Nat} (h : lat < 4096) (drawn : Word) : (capturedLatency lat drawn).toNat = lat := by
  simp [capturedLatency, h]

/-- What a write stores into PMC[0], bit by bit. -/
theorem pmc0_ofImage_overflow_bit (v : Word) {k : Nat} (h : k < 4) :
    (Pmc0.ofImage v).overflow.getLsbD k = v.getLsbD (4 + k) := by
  simp [Pmc0.ofImage, h]

/-- General register 0 reads zero. -/
@[simp] theorem readGr_zero (c : CoreRegs) : c.readGr 0 = 0 := by simp [CoreRegs.readGr]

/-- A write to a register other than 0 is what that register reads. -/
theorem readGr_writeGr_same (c : CoreRegs) {r : BitVec 7} (h : r ≠ 0) (v : Word) : (c.writeGr r v).readGr r = v := by
  simp only [CoreRegs.readGr, CoreRegs.writeGr, if_neg h, Vector.getElem_set_self]

/-- A write leaves every other register alone. -/
theorem readGr_writeGr_other (c : CoreRegs) {r q : BitVec 7} (h : q ≠ r) (v : Word) :
    (c.writeGr r v).readGr q = c.readGr q := by
  have hne : r.toNat ≠ q.toNat := fun e => h (BitVec.eq_of_toNat_eq e).symm
  simp [CoreRegs.readGr, CoreRegs.writeGr, hne]

@[simp] theorem writeGr_pr (c : CoreRegs) (r : BitVec 7) (v : Word) : (c.writeGr r v).pr = c.pr := rfl

end Sys2Proof.Machine
end

