-- ==== Sys2Proof/Laws/State.lean ====
section
/-! SUPPORT. One lemma for each field and update of State, and for each named operation over it. -/

namespace Sys2Proof.Machine

variable (s : State) (o : Obs) (r : Regs)

@[simp] theorem show_regs : (s.show o).regs = s.regs := rfl
@[simp] theorem show_env : (s.show o).env = s.env := rfl
@[simp] theorem show_core : (s.show o).core = s.core := rfl
@[simp] theorem show_inbox : (s.show o).inbox = s.inbox := rfl
@[simp] theorem show_past : (s.show o).past = s.past := rfl
@[simp] theorem show_draws : (s.show o).draws = s.draws := rfl
@[simp] theorem show_obs : (s.show o).obs = o := rfl

@[simp] theorem setRegs_regs : (s.setRegs r).regs = r := rfl
@[simp] theorem setRegs_env : (s.setRegs r).env = s.env := rfl
@[simp] theorem setRegs_core : (s.setRegs r).core = s.core := rfl
@[simp] theorem setRegs_inbox : (s.setRegs r).inbox = s.inbox := rfl
@[simp] theorem setRegs_past : (s.setRegs r).past = s.past := rfl
@[simp] theorem setRegs_draws : (s.setRegs r).draws = s.draws := rfl
@[simp] theorem setRegs_obs : (s.setRegs r).obs = s.obs := rfl

@[simp] theorem afterDraw_regs : s.afterDraw.regs = s.regs := rfl
@[simp] theorem afterDraw_env : s.afterDraw.env = s.env := rfl
@[simp] theorem afterDraw_core : s.afterDraw.core = s.core := rfl
@[simp] theorem afterDraw_inbox : s.afterDraw.inbox = s.inbox := rfl
@[simp] theorem afterDraw_past : s.afterDraw.past = s.past := rfl
@[simp] theorem afterDraw_draws : s.afterDraw.draws = s.draws + 1 := rfl
@[simp] theorem afterDraw_obs : s.afterDraw.obs = s.obs := rfl

@[simp] theorem accept_regs (q : Request) (l : List Request) : (s.accept q l).regs = s.regs := rfl
@[simp] theorem accept_env (q : Request) (l : List Request) : (s.accept q l).env = q.env := rfl
@[simp] theorem accept_core (q : Request) (l : List Request) : (s.accept q l).core = s.core := rfl
@[simp] theorem accept_inbox (q : Request) (l : List Request) : (s.accept q l).inbox = l := rfl
@[simp] theorem accept_past (q : Request) (l : List Request) : (s.accept q l).past = s.past := rfl
@[simp] theorem accept_draws (q : Request) (l : List Request) : (s.accept q l).draws = s.draws := rfl

@[simp] theorem silent_taken : Obs.silent.taken = true := rfl
@[simp] theorem silent_result : Obs.silent.result = none := rfl
@[simp] theorem silent_pmiRequest : Obs.silent.pmiRequest = false := rfl
@[simp] theorem notTaken_taken : Obs.notTaken.taken = false := rfl
@[simp] theorem notTaken_result : Obs.notTaken.result = none := rfl
@[simp] theorem notTaken_pmiRequest : Obs.notTaken.pmiRequest = false := rfl

/-- Placing an operation and taking it again leaves the state as it was. -/
theorem offer_accept (m : Image) : (s.offer m).accept ⟨s.env, m⟩ s.inbox = s := rfl

/-- Every field of a state, for proofs that compare states. -/
theorem state_ext {t : State} (h1 : s.regs = t.regs) (h2 : s.env = t.env) (h3 : s.core = t.core) (h4 : s.inbox = t.inbox)
    (h5 : s.past = t.past) (h6 : s.draws = t.draws) (h7 : s.obs = t.obs) : s = t := by
  cases s; cases t; simp_all

end Sys2Proof.Machine
end

