-- ==== Sys2Proof/Laws/Exec.lean ====
section
/-! SUPPORT. What each shared operation can answer, and, once for all operations, what `exec` and `step` can do. -/

namespace Sys2Proof.Machine

/-- What an operation leaves alone. -/
theorem keepsInputs_refl (s : State) : s.keepsInputs s := ⟨rfl, rfl, rfl⟩

theorem keepsInputs_show (s : State) (o : Obs) : s.keepsInputs (s.show o) := ⟨rfl, rfl, rfl⟩

theorem keepsInputs_afterDraw (s : State) : s.keepsInputs s.afterDraw := ⟨rfl, rfl, rfl⟩

/-- Everything an operation can do to the unit, to the core registers and to what is shown. -/
inductive Effect (i : Instr) (s : State) : State → Prop where
  /-- No register of the unit changes: a read, an event whose outputs are tags, an event that is not enabled, a drop. -/
  | shown (n : Nat) (o : Obs) (hpmi : o.pmiRequest = false) : Effect i s { s with draws := s.draws + n, obs := o }
  /-- A `mov` that reads takes the result into its target. -/
  | taken (n : Nat) (o : Obs) (r1 : BitVec 7) (v : Word) (hpmi : o.pmiRequest = false) (hres : o.result = some v)
      (hi : ∃ r3 qp, i = .movFromPmc r1 r3 qp ∨ i = .movFromPmd r1 r3 qp) (h0 : r1 ≠ 0) :
      Effect i s { s with draws := s.draws + n, obs := o, core := s.core.writeGr r1 v }
  /-- Software writes a configuration register. -/
  | configured (r : Regs) (hi : i.agent = .software) (hread : i.isRead = false) (h0 : r.pmc0 = s.regs.pmc0)
      (hd0 : r.pmd0 = s.regs.pmd0) (hd1 : r.pmd1 = s.regs.pmd1) (hc : r.iearCaptured = s.regs.iearCaptured) :
      Effect i s { s with regs := r, obs := Obs.silent }
  /-- Software writes PMC[0] and does not re-enable collection. -/
  | pmc0Written (v : Word) (hi : i = .pmcWr0 v ∨ ∃ r3 r2 qp, i = .movToPmc r3 r2 qp ∧ s.core.readGr r3 = 0 ∧ s.core.readGr r2 = v)
      (hno : reEnables s.regs.pmc0 (Pmc0.ofImage v) = false) :
      Effect i s { s with regs := { s.regs with pmc0 := Pmc0.ofImage v }, obs := Obs.silent }
  /-- Software writes PMC[0] and re-enables collection. -/
  | restarted (v : Word) (hi : i = .pmcWr0 v ∨ ∃ r3 r2 qp, i = .movToPmc r3 r2 qp ∧ s.core.readGr r3 = 0 ∧ s.core.readGr r2 = v)
      (hyes : reEnables s.regs.pmc0 (Pmc0.ofImage v) = true) :
      Effect i s { s with
        regs := { s.regs with pmc0 := Pmc0.ofImage v }.restartCollection s.drawn, draws := s.draws + 1, obs := Obs.silent }
  /-- Counters overflow. -/
  | overflowed (S : BitVec 4) (hi : i = .evOvf S) (hS : S ≠ 0) (hfr : s.regs.pmc0.fr = false) :
      Effect i s { s with
        regs := { s.regs with pmc0 := s.regs.pmc0.afterOverflow S s.env.oi },
        obs := { Obs.silent with pmiRequest := someInterrupting S s.env.oi } }
  /-- A miss is captured. -/
  | captured (line : BitVec 59) (lat : Nat) (hi : i = .evIearCapture line lat)
      (hen : captureEnabled s.regs s.env lat = true) :
      Effect i s { s with regs := s.regs.capture line lat s.drawn, draws := s.draws + 1, obs := Obs.silent }

section Shared

variable {i : Instr} {s t : State}

theorem answer_effect {r : Word} (h : answer r s = .next t) : Effect i s t := by
  cases h; exact .shown 0 _ rfl

theorem answerDrawn_effect {r : Word} (h : answerDrawn r s = .next t) : Effect i s t := by
  cases h; exact .shown 1 _ rfl

theorem noEffect_effect (h : noEffect s = .next t) : Effect i s t := by
  cases h; exact .shown 0 _ rfl

theorem notEnabled_effect (h : notEnabled s = .next t) : Effect i s t := by
  cases h; exact .shown 0 _ rfl

theorem readInstructionEar_effect {f : Word} (h : readInstructionEar f s = .next t) : Effect i s t := by
  unfold readInstructionEar at h
  split at h
  · exact answerDrawn_effect h
  · split at h
    · cases h
    · exact answerDrawn_effect h

theorem readDataEar_effect (h : readDataEar s = .next t) : Effect i s t := by
  unfold readDataEar at h
  split at h
  · exact answerDrawn_effect h
  · cases h

/-- A read answers with a result and changes nothing but the count of draws. -/
def ReadsOnly (s t : State) : Prop :=
  ∃ (n : Nat) (o : Obs) (v : Word), o.pmiRequest = false ∧ o.result = some v ∧ t = { s with draws := s.draws + n, obs := o }

theorem answer_readsOnly {r : Word} (h : answer r s = .next t) : ReadsOnly s t := by
  cases h; exact ⟨0, _, r, rfl, rfl, rfl⟩

theorem answerDrawn_readsOnly {r : Word} (h : answerDrawn r s = .next t) : ReadsOnly s t := by
  cases h; exact ⟨1, _, r, rfl, rfl, rfl⟩

theorem readInstructionEar_readsOnly {f : Word} (h : readInstructionEar f s = .next t) : ReadsOnly s t := by
  unfold readInstructionEar at h
  split at h
  · exact answerDrawn_readsOnly h
  · split at h
    · cases h
    · exact answerDrawn_readsOnly h

theorem readDataEar_readsOnly (h : readDataEar s = .next t) : ReadsOnly s t := by
  unfold readDataEar at h
  split at h
  · exact answerDrawn_readsOnly h
  · cases h

theorem readPmcIndexed_readsOnly {n : Nat} (h : readPmcIndexed n s = .next t) : ReadsOnly s t := by
  unfold readPmcIndexed at h
  split at h <;> first | exact answer_readsOnly h | exact answerDrawn_readsOnly h | cases h

theorem readPmdIndexed_readsOnly {n : Nat} (h : readPmdIndexed n s = .next t) : ReadsOnly s t := by
  unfold readPmdIndexed at h
  split at h <;> first | exact readInstructionEar_readsOnly h | exact readDataEar_readsOnly h | cases h

/-- What a `mov` that reads answers, from what the read answers. -/
theorem writeBack_next {r1 : BitVec 7} {o : Result} (hr : ∀ u, o = .next u → ReadsOnly s u)
    (h : writeBack r1 o = .next t) :
    ∃ (n : Nat) (ob : Obs) (v : Word), ob.pmiRequest = false ∧ ob.result = some v ∧
      t = { s with draws := s.draws + n, obs := ob, core := s.core.writeGr r1 v } := by
  cases o with
  | next u =>
    obtain ⟨n, ob, v, hp, hv, rfl⟩ := hr u rfl
    simp only [writeBack, hv] at h
    cases h
    exact ⟨n, ob, v, hp, hv, rfl⟩
  | fault f => cases h
  | refused r => cases h

theorem predicated_next {qp : BitVec 6} {o : Result} (h : predicated qp s o = .next t) :
    (s.core.readPr qp = true ∧ o = .next t) ∨ (s.core.readPr qp = false ∧ noEffect s = .next t) := by
  unfold predicated at h
  split at h
  · exact .inl ⟨‹_›, h⟩
  · exact .inr ⟨by simp_all, h⟩

theorem privileged_next {o : Result} (h : privileged s o = .next t) : s.env.psr.cpl = 0 ∧ o = .next t := by
  unfold privileged at h
  split at h
  · exact ⟨‹_›, h⟩
  · cases h

theorem targeting_next {r1 : BitVec 7} {o : Result} (h : targeting r1 o = .next t) : r1 ≠ 0 ∧ o = .next t := by
  unfold targeting at h
  split at h
  · cases h
  · exact ⟨‹_›, h⟩

/-- `PMC.WR 0` in its two cases. -/
theorem execPmcWr0_effect {v : Word} (h : execPmcWr0 v s = .next t)
    (hi : i = .pmcWr0 v ∨ ∃ r3 r2 qp, i = .movToPmc r3 r2 qp ∧ s.core.readGr r3 = 0 ∧ s.core.readGr r2 = v) :
    Effect i s t := by
  simp only [execPmcWr0] at h
  split at h
  · cases h; exact .restarted v hi ‹_›
  · cases h; exact .pmc0Written v hi (by simp_all)

end Shared

/-- The one inversion of `exec`: whatever it answers next, one of the cases of `Effect` holds. -/
theorem exec_effect {i : Instr} {s t : State} (h : exec i s = .next t) : Effect i s t := by
  cases i with
  | pmcRd0 | pmcRd1 | pmcRd2 | pmcRd3 | pmcRd8 | pmcRd9 | pmcRd10 | pmcRd13 => exact answer_effect h
  | pmcRd11 => exact answerDrawn_effect h
  | pmcWr1 v | pmcWr2 v | pmcWr3 v => exact noEffect_effect h
  | pmcWr0 v => exact execPmcWr0_effect h (.inl rfl)
  | pmcWr8 v | pmcWr9 v | pmcWr10 v | pmcWr11 v | pmcWr13 v => cases h; exact .configured _ rfl rfl rfl rfl rfl rfl
  | evFetch t e => cases h; exact .shown 0 _ rfl
  | evFetch32 => cases h; exact .shown 0 _ rfl
  | evMemref a t | evRseVhpt a t => cases h; exact .shown 0 _ rfl
  | pmdRd0 | pmdRd1 => exact readInstructionEar_effect h
  | pmdRd2 | pmdRd3 | pmdRd17 => exact readDataEar_effect h
  | evOvf S =>
    simp only [exec, execEvOvf] at h
    split at h
    · cases h
    · split at h
      · exact notEnabled_effect h
      · cases h; exact .overflowed S rfl ‹_› (by simp_all)
  | evIearCapture l n =>
    simp only [exec, execEvIearCapture] at h
    split at h
    · split at h
      · cases h; exact .captured l n rfl ‹_›
      · cases h; exact .shown 1 _ rfl
    · exact notEnabled_effect h
  | movToPmc r3 r2 qp =>
    obtain ⟨-, h⟩ | ⟨-, h⟩ := predicated_next h
    · replace h := (privileged_next h).2
      unfold writePmcIndexed at h
      split at h
      · exact execPmcWr0_effect h (.inr ⟨r3, r2, qp, rfl, BitVec.eq_of_toNat_eq (by simpa using ‹_›), rfl⟩)
      all_goals first
        | exact noEffect_effect h
        | (cases h; done)
        | (cases h; exact .configured _ rfl rfl rfl rfl rfl rfl)
    · exact noEffect_effect h
  | movToPmd r3 r2 qp =>
    obtain ⟨-, h⟩ | ⟨-, h⟩ := predicated_next h
    · cases (privileged_next h).2
    · exact noEffect_effect h
  | movFromPmc r1 r3 qp =>
    obtain ⟨-, h⟩ | ⟨-, h⟩ := predicated_next h
    · obtain ⟨h0, h⟩ := targeting_next h
      obtain ⟨n, o, v, hp, hv, rfl⟩ := writeBack_next (fun _ => readPmcIndexed_readsOnly) (privileged_next h).2
      exact .taken n o r1 v hp hv ⟨r3, qp, .inl rfl⟩ h0
    · exact noEffect_effect h
  | movFromPmd r1 r3 qp =>
    obtain ⟨-, h⟩ | ⟨-, h⟩ := predicated_next h
    · obtain ⟨h0, h⟩ := targeting_next h
      obtain ⟨n, o, v, hp, hv, rfl⟩ := writeBack_next (s := s) (fun u hu => by
        split at hu
        · exact readPmdIndexed_readsOnly hu
        · exact answerDrawn_readsOnly hu) h
      exact .taken n o r1 v hp hv ⟨r3, qp, .inr rfl⟩ h0
    · exact noEffect_effect h

/-- The one inversion of `step`: it idles, or it is `exec` of the decoded operation and remembers the tag registers. -/
theorem step_next {s t : State} (h : step s = .next t) :
    (s.inbox = [] ∧ t = s.show Obs.notTaken) ∨
    ∃ (r : Request) (rest : List Request) (i : Instr) (u : State), s.inbox = r :: rest ∧ decode r.image = .ok i ∧
      exec i (s.accept r rest) = .next u ∧ t = { u with past := s.tagRegs :: s.past } := by
  unfold step at h
  split at h
  · cases h; exact .inl ⟨‹_›, rfl⟩
  · rename_i r rest hin
    split at h
    · rename_i i hd
      revert h
      cases he : exec i (s.accept r rest) with
      | next u => intro h; cases h; exact .inr ⟨r, rest, i, u, hin, hd, he, rfl⟩
      | fault f => intro h; cases h
      | refused f => intro h; cases h
    · cases h

/-- Nothing of the record beyond SYNC_DELAY steps is seen (R135). -/
theorem seenAt_take {α : Type} (lag : Nat) (now : α) (past : List α) :
    seenAt lag now (past.take Config.syncDelay) = seenAt lag now past := by
  cases lag with
  | zero => rfl
  | succ k =>
    simp only [seenAt]
    split
    · rw [List.getD_eq_getElem?_getD, List.getD_eq_getElem?_getD, List.getElem?_take_of_lt (by omega)]
    · rfl

/-- A value that is seen is the present one or one of the last SYNC_DELAY steps'. -/
theorem seenAt_mem {α : Type} (lag : Nat) (now : α) (past : List α) :
    seenAt lag now past = now ∨ seenAt lag now past ∈ past.take Config.syncDelay := by
  cases lag with
  | zero => exact .inl rfl
  | succ k =>
    simp only [seenAt]
    split
    · rename_i hk
      by_cases hl : k < past.length
      · refine .inr ?_
        rw [List.getD_eq_getElem _ _ hl]
        exact List.mem_take_iff_getElem.mpr ⟨k, by omega, rfl⟩
      · exact .inl (by simp [List.getD, show past.length ≤ k by omega])
    · exact .inl rfl

end Sys2Proof.Machine
end

