-- ==== Sys2Proof/Laws/PerInstr.lean ====
section
/-! SUPPORT. The statement families made constructor by constructor (LAWS.json): ImageRoundTrip, that the decoder reads each
well-formed operation back from its image. -/

namespace Sys2Proof.Laws.ImageRoundTrip

/-- The image of a well-formed operation decodes to it. -/
def Statement (i : Instr) : Prop := i.wellFormed = true → decode (encode i) = .ok i

/-- A memory reference: its one-bit operand is read back. -/
theorem tag8_read (addr : Word) (t : Bool) (f : Bool → Instr) :
    decodeTag8 (reference 7 addr t).low f ((reference 7 addr t).b == 0) = .ok (f t) := by
  cases t <;> rfl

theorem pmcRd0 : Statement (.pmcRd0) := fun _ => rfl

theorem pmcWr0 (v : Word) : Statement (.pmcWr0 v) := fun _ => rfl

theorem pmcRd1 : Statement (.pmcRd1) := fun _ => rfl

theorem pmcRd2 : Statement (.pmcRd2) := fun _ => rfl

theorem pmcRd3 : Statement (.pmcRd3) := fun _ => rfl

theorem pmcWr1 (v : Word) : Statement (.pmcWr1 v) := fun _ => rfl

theorem pmcWr2 (v : Word) : Statement (.pmcWr2 v) := fun _ => rfl

theorem pmcWr3 (v : Word) : Statement (.pmcWr3 v) := fun _ => rfl

theorem evOvf (S : BitVec 4) : Statement (.evOvf S) := by
  intro h
  have hS : S ≠ 0 := by simpa [Instr.wellFormed] using h
  have h0 : field (0#33 ++ S ++ 0#4 : BitVec 41) 0 4 = 0 := by
    apply BitVec.eq_of_getLsbD_eq; intro i hi
    simp only [BitVec.getLsbD_extractLsb', BitVec.getLsbD_append, BitVec.getLsbD_zero]; grind
  have h1 : field (0#33 ++ S ++ 0#4 : BitVec 41) 8 33 = 0 := by
    apply BitVec.eq_of_getLsbD_eq; intro i hi
    simp only [BitVec.getLsbD_extractLsb', BitVec.getLsbD_append, BitVec.getLsbD_zero]; grind
  have h2 : field (0#33 ++ S ++ 0#4 : BitVec 41) 4 4 = S := by
    apply BitVec.eq_of_getLsbD_eq; intro i hi
    simp only [BitVec.getLsbD_extractLsb', BitVec.getLsbD_append, BitVec.getLsbD_zero]; grind
  show decodeOvf (0#33 ++ S ++ 0#4) true = _
  rw [decodeOvf, if_pos ⟨h0, h1⟩, h2, if_neg hS]
  rfl

theorem pmcRd13 : Statement (.pmcRd13) := fun _ => rfl

theorem pmcWr13 (v : Word) : Statement (.pmcWr13 v) := fun _ => rfl

theorem pmcRd8 : Statement (.pmcRd8) := fun _ => rfl

theorem pmcRd9 : Statement (.pmcRd9) := fun _ => rfl

theorem pmcWr8 (v : Word) : Statement (.pmcWr8 v) := fun _ => rfl

theorem pmcWr9 (v : Word) : Statement (.pmcWr9 v) := fun _ => rfl

theorem evFetch (t : IType) (e : BitVec 41) : Statement (.evFetch t e) := by cases t <;> exact fun _ => rfl

theorem evFetch32 : Statement (.evFetch32) := fun _ => rfl

theorem pmcRd11 : Statement (.pmcRd11) := fun _ => rfl

theorem pmcWr11 (v : Word) : Statement (.pmcWr11 v) := fun _ => rfl

theorem evMemref (a : Word) (t : Bool) : Statement (.evMemref a t) := fun _ => tag8_read a t (.evMemref a)

theorem evRseVhpt (a : Word) (t : Bool) : Statement (.evRseVhpt a t) := fun _ => tag8_read a t (.evRseVhpt a)

theorem pmcRd10 : Statement (.pmcRd10) := fun _ => rfl

theorem pmcWr10 (v : Word) : Statement (.pmcWr10 v) := fun _ => rfl

theorem evIearCapture (l : BitVec 59) (n : Nat) : Statement (.evIearCapture l n) := by
  intro _
  have h0 : field (0#5 ++ l : Word) 59 5 = 0 := by
    apply BitVec.eq_of_getLsbD_eq; intro i hi
    simp only [BitVec.getLsbD_extractLsb', BitVec.getLsbD_append, BitVec.getLsbD_zero]; grind
  have h1 : field (0#5 ++ l : Word) 0 59 = l := by
    apply BitVec.eq_of_getLsbD_eq; intro i hi
    simp only [BitVec.getLsbD_extractLsb', BitVec.getLsbD_append, BitVec.getLsbD_zero]; grind
  show ifUnused ((0 : BitVec 41) == 0 && field (0#5 ++ l : Word) 59 5 == 0)
    (.evIearCapture (field (0#5 ++ l : Word) 0 59) n) = _
  rw [h0, h1]
  rfl

theorem pmdRd0 : Statement (.pmdRd0) := fun _ => rfl

theorem pmdRd1 : Statement (.pmdRd1) := fun _ => rfl

theorem pmdRd2 : Statement (.pmdRd2) := fun _ => rfl

theorem pmdRd3 : Statement (.pmdRd3) := fun _ => rfl

theorem pmdRd17 : Statement (.pmdRd17) := fun _ => rfl

theorem movToPmc (r3 r2 : BitVec 7) (qp : BitVec 6) : Statement (.movToPmc r3 r2 qp) := by
  intro _
  obtain ⟨hk, h3, h2, hq⟩ := encodeM42_fields 0x04#6 r3 r2 qp
  show decodeSyllable (encodeM42 0x04#6 r3 r2 qp) = _
  simp only [decodeSyllable, hk, h3, h2, hq]
  rfl

theorem movToPmd (r3 r2 : BitVec 7) (qp : BitVec 6) : Statement (.movToPmd r3 r2 qp) := by
  intro _
  obtain ⟨hk, h3, h2, hq⟩ := encodeM42_fields 0x05#6 r3 r2 qp
  show decodeSyllable (encodeM42 0x05#6 r3 r2 qp) = _
  simp only [decodeSyllable, hk, h3, h2, hq]
  rfl

theorem movFromPmc (r1 r3 : BitVec 7) (qp : BitVec 6) : Statement (.movFromPmc r1 r3 qp) := by
  intro _
  obtain ⟨hk, h3, h1, hq⟩ := encodeM43_fields 0x14#6 r1 r3 qp
  show decodeSyllable (encodeM43 0x14#6 r1 r3 qp) = _
  simp only [decodeSyllable, hk, h3, h1, hq]
  rfl

theorem movFromPmd (r1 r3 : BitVec 7) (qp : BitVec 6) : Statement (.movFromPmd r1 r3 qp) := by
  intro _
  obtain ⟨hk, h3, h1, hq⟩ := encodeM43_fields 0x15#6 r1 r3 qp
  show decodeSyllable (encodeM43 0x15#6 r1 r3 qp) = _
  simp only [decodeSyllable, hk, h3, h1, hq]
  rfl

end Sys2Proof.Laws.ImageRoundTrip
end

