-- ==== Sys2Proof/Tests/Slice0.lean ====
section
/-! SUPPORT. Tests, with expected results from spec/95_test_vectors.md or worked out by hand from the rule that is named,
and for each statement with hypotheses a witness that meets them. -/

namespace Sys2Proof.Tests

open Sys2Proof Sys2Proof.Machine

/-! ### Small states -/

/-- What an operation shows. -/
def shown (o : Result) : Option Obs :=
  match o with
  | .next t    => some t.obs
  | .fault _   => none
  | .refused _ => none

/-- The unit's registers after an operation. -/
def regsAfter (o : Result) : Option Regs :=
  match o with
  | .next t    => some t.regs
  | .fault _   => none
  | .refused _ => none

/-- The refusal an operation ends in. -/
def refusal (o : Result) : Option Refusal :=
  match o with
  | .next _    => none
  | .fault _   => none
  | .refused r => some r

/-- The fault an operation ends in. -/
def faultOf (o : Result) : Option Fault :=
  match o with
  | .next _    => none
  | .fault f   => some f
  | .refused _ => none

/-- The reset state with the given PMC[0] and overflow interrupt bits. -/
def withPmc0 (fr : Bool) (overflow oi : BitVec 4) : State :=
  { State.reset with
    regs := { State.reset.regs with pmc0 := ⟨fr, overflow⟩ }, env := { State.reset.env with oi := oi } }

/-- K4k of 95_test_vectors.md: a naturally aligned range of 4096 bytes. -/
def k4k : BitVec 56 := 0xFFFFFFFFFFF000

/-- The environment of P2: pair 0 is the code page at 0x400000, user level only; the other pairs never match. -/
def pageEnv (ip : Word) (cpl : BitVec 2) (db x5 : Bool) : Env :=
  { State.reset.env with
    ip := ip, psr := ⟨false, db, cpl, false⟩,
    ibr := #v[⟨0x400000, k4k, 8, false⟩, ⟨0, 0, 0, false⟩, ⟨0, 0, 0, x5⟩, ⟨0, 0, 0, false⟩] }

/-- The registers of P2 before its step 3, with the given `ta`. -/
def pageState (ta : Bool) (e : Env) : State :=
  { State.reset with
    regs := { State.reset.regs with
      ta := ta, pmc8 := OpMatch.ofImage 0xF00000003FFFFFF8, pmc9 := OpMatch.ofImage 0x8800000001FFFFF8 },
    env := e }

/-- The environment of P4: pair 0 is the 64 KiB range at 0x6000_0000_0001_0000. -/
def rangeState (pt db : Bool) : State :=
  { State.reset with
    regs := { State.reset.regs with pt := pt },
    env := { State.reset.env with
      psr := ⟨false, db, 0, false⟩,
      dbr := #v[⟨0x6000000000010000, 0xFFFFFFFFFF0000, 0, false, false⟩,
        ⟨0xE000000000000000, 0xFFFFFFFFFFFFFF, 0, false, false⟩,
        ⟨0xE000000000000000, 0xFFFFFFFFFFFFFF, 0, true, false⟩,
        ⟨0xE000000000000000, 0xFFFFFFFFFFFFFF, 15, true, true⟩] } }

/-- The state of P5 after its capture (step 3), with the given freeze bit and TLB selector. -/
def capturedState (fr tlb : Bool) : State :=
  { State.reset with
    regs := { State.reset.regs with
      pmc0 := ⟨fr, 0⟩, pmc10 := ⟨0xF, false, tlb, 3, 0⟩, pmd0 := ⟨true, false, 0x200000000002001⟩, pmd1 := ⟨37⟩,
      iearCaptured := true },
    env := { State.reset.env with oi := 2 } }

/-- General register 8 holds a register index, 9 a value; predicate 1 is true, predicate 2 is false. -/
def movState (index v : Word) (cpl : BitVec 2) : State :=
  { State.reset with
    env := { State.reset.env with psr := ⟨false, false, cpl, false⟩ },
    core := ⟨((State.reset.core.gr).set 8 index).set 9 v, 2⟩ }

/-- The reset state with one image in the inbox. -/
def oneRequest (m : Image) : State := { State.reset with inbox := [⟨State.reset.env, m⟩] }

/-! ### Well-formedness -/

theorem test_wellFormed_refuses_empty_set : (Instr.evOvf 0).wellFormed = false := by decide

theorem test_wellFormed_accepts : (Instr.evOvf 1).wellFormed = true ∧ (Instr.evIearCapture 0 (2 ^ 64)).wellFormed = true := by
  decide

/-! ### Decoding: words written out by hand -/

/-- Major opcode, bit 36, x3, x6, r3, r2 or zero, r1 or zero, qp (G1). -/
theorem test_decode_mov :
    decodeTableWord 48 0b0001_0_000_000100_0001000_0001001_0000000_000011 = some (.movToPmc 8 9 3) ∧
    decodeTableWord 48 0b0001_0_000_000101_0001000_0001001_0000000_000011 = some (.movToPmd 8 9 3) ∧
    decodeTableWord 48 0b0001_0_000_010100_0001000_0000000_0000101_000011 = some (.movFromPmc 5 8 3) ∧
    decodeTableWord 48 0b0001_0_000_010101_0001000_0000000_0000101_000011 = some (.movFromPmd 5 8 3) := by decide

/-- Bit 36 and the fields the format leaves out are outside the table's mask 0x1EFF8000000. -/
theorem test_decode_mov_ignores_unmasked :
    decodeTableWord 48 0b0001_1_000_000100_0001000_0001001_1111111_000011 = some (.movToPmc 8 9 3) ∧
    decodeTableWord 48 0b0001_1_000_010101_0001000_1111111_0000101_000011 = some (.movFromPmd 5 8 3) := by decide

/-- x6 of `mov ibr[r3] = r2` (G1), another major opcode, another x3: no row of the table. -/
theorem test_decode_mov_neighbours :
    decodeTableWord 48 0b0001_0_000_000010_0001000_0001001_0000000_000011 = none ∧
    decodeTableWord 48 0b0101_0_000_000100_0001000_0001001_0000000_000011 = none ∧
    decodeTableWord 48 0b0001_0_100_000100_0001000_0001001_0000000_000011 = none := by decide

theorem test_decode_pmc_reads :
    decodeTableWord 176 0x20000000000 = some .pmcRd0 ∧ decodeTableWord 176 0x20000000001 = some .pmcRd1 ∧
    decodeTableWord 176 0x20000000002 = some .pmcRd2 ∧ decodeTableWord 176 0x20000000003 = some .pmcRd3 ∧
    decodeTableWord 176 0x20000000008 = some .pmcRd8 ∧ decodeTableWord 176 0x20000000009 = some .pmcRd9 ∧
    decodeTableWord 176 0x2000000000A = some .pmcRd10 ∧ decodeTableWord 176 0x2000000000B = some .pmcRd11 ∧
    decodeTableWord 176 0x2000000000D = some .pmcRd13 := by decide

theorem test_decode_pmc_writes :
    decodeTableWord 176 0x8000000000000001_040000000000 = some (.pmcWr0 0x8000000000000001) ∧
    decodeTableWord 176 0x8000000000000001_040000000001 = some (.pmcWr1 0x8000000000000001) ∧
    decodeTableWord 176 0x8000000000000001_040000000002 = some (.pmcWr2 0x8000000000000001) ∧
    decodeTableWord 176 0x8000000000000001_040000000003 = some (.pmcWr3 0x8000000000000001) ∧
    decodeTableWord 176 0x8000000000000001_040000000008 = some (.pmcWr8 0x8000000000000001) ∧
    decodeTableWord 176 0x8000000000000001_040000000009 = some (.pmcWr9 0x8000000000000001) ∧
    decodeTableWord 176 0x8000000000000001_04000000000A = some (.pmcWr10 0x8000000000000001) ∧
    decodeTableWord 176 0x8000000000000001_04000000000B = some (.pmcWr11 0x8000000000000001) ∧
    decodeTableWord 176 0x8000000000000001_04000000000D = some (.pmcWr13 0x8000000000000001) := by decide

theorem test_decode_pmd_reads :
    decodeTableWord 176 0x60000000000 = some .pmdRd0 ∧ decodeTableWord 176 0x60000000001 = some .pmdRd1 ∧
    decodeTableWord 176 0x60000000002 = some .pmdRd2 ∧ decodeTableWord 176 0x60000000003 = some .pmdRd3 ∧
    decodeTableWord 176 0x60000000011 = some .pmdRd17 := by decide

theorem test_decode_events :
    decodeTableWord 176 0x80000000040 = some (.evOvf 4) ∧
    decodeTableWord 176 0x0000000000000000_0B0000000000 = some (.evFetch .M 0x10000000000) ∧
    decodeTableWord 176 0x0000000000000003_0BFFFFFFFFFF = some (.evFetch .B 0x1FFFFFFFFFF) ∧
    decodeTableWord 176 0xC0000000000 = some .evFetch32 ∧
    decodeTableWord 176 0x600000000001ABCD_0E0000000001 = some (.evMemref 0x600000000001ABCD true) ∧
    decodeTableWord 176 0x6000000000010040_100000000000 = some (.evRseVhpt 0x6000000000010040 false) ∧
    decodeTableWord 176 0x25_0200000000002001_120000000000 = some (.evIearCapture 0x200000000002001 37) := by decide

/-- A latency is any natural number (R103): 2^64 + 37 at bits 112 and up. -/
theorem test_decode_long_latency :
    decodeTableWord 177 0x10000000000000025_0200000000002001_120000000000 =
      some (.evIearCapture 0x200000000002001 (2 ^ 64 + 37)) := by decide

/-- 95_test_vectors.md section 2.7, and a fifth instruction type (R86). -/
theorem test_decode_refuses :
    decode (indexed 1 4 0) = .error (.noRuleForRegister 4) ∧ decode (indexed 2 7 5) = .error (.noRuleForRegister 7) ∧
    decode (indexed 1 12 0) = .error (.noRuleForRegister 12) ∧ decode (indexed 1 14 0) = .error (.noRuleForRegister 14) ∧
    decode (indexed 3 4 0) = .error (.noRuleForRegister 4) ∧ decode (indexed 3 16 0) = .error (.noRuleForRegister 16) ∧
    decode (indexed 3 18 0) = .error (.noRuleForRegister 18) ∧ decode ⟨5, 0, 4, 0⟩ = .error (.itypeOutside 4) ∧
    decode ⟨4, 0, 0, 0⟩ = .error .emptyOverflowSet := by decide

/-! ### Overflow status (95_test_vectors.md 2.1, P3) -/

theorem test_pmc0_read : shown (exec .pmcRd0 (withPmc0 true 3 0)) = some { Obs.silent with result := some 0x31 } := by decide

theorem test_pmc0_write_drops_ignored :
    regsAfter (exec (.pmcWr0 0xFFFFFFFFFFFFFFFF) State.reset) = some (withPmc0 true 15 0).regs ∧
    regsAfter (exec (.pmcWr0 0xFFFFFFFFFFFFFF0E) (withPmc0 false 15 0)) = some State.reset.regs := by decide

theorem test_pmc1_to_3 :
    shown (exec .pmcRd1 (withPmc0 true 15 0)) = some { Obs.silent with result := some 0 } ∧
    shown (exec .pmcRd2 (withPmc0 true 15 0)) = some { Obs.silent with result := some 0 } ∧
    shown (exec .pmcRd3 (withPmc0 true 15 0)) = some { Obs.silent with result := some 0 } ∧
    regsAfter (exec (.pmcWr1 1) (withPmc0 false 6 0)) = some (withPmc0 false 6 0).regs ∧
    regsAfter (exec (.pmcWr2 0xFFFFFFFFFFFFFFFF) (withPmc0 false 6 0)) = some (withPmc0 false 6 0).regs ∧
    regsAfter (exec (.pmcWr3 0xFFFFFFFFFFFFFFFF) (withPmc0 false 6 0)) = some (withPmc0 false 6 0).regs := by decide

/-- PMC[0] = 0x90, oi[5] and oi[6] set, `EV.OVF {4, 5}`: 0xB1 and a request. -/
theorem test_overflow_freezes :
    regsAfter (exec (.evOvf 0b0011) (withPmc0 false 0b1001 0b0110)) = some (withPmc0 true 0b1011 0).regs ∧
    shown (exec (.evOvf 0b0011) (withPmc0 false 0b1001 0b0110)) = some { Obs.silent with pmiRequest := true } := by decide

/-- PMC[0] = 0x00, `EV.OVF {4, 7}` with oi[4] = oi[7] = 0: 0x90 and no freeze. With fr = 1: not enabled. -/
theorem test_overflow_without_interrupt :
    regsAfter (exec (.evOvf 0b1001) (withPmc0 false 0 0b0110)) = some (withPmc0 false 0b1001 0).regs ∧
    regsAfter (exec (.evOvf 0b0100) (withPmc0 true 0b0011 0b0110)) = some (withPmc0 true 0b0011 0).regs := by decide

/-! ### Instruction range check (95_test_vectors.md 2.2) -/

theorem test_pmc13 :
    regsAfter (exec (.pmcWr13 0xFFFFFFFFFFFFFFFE) State.reset) = some { State.reset.regs with ta := false } ∧
    shown (exec .pmcRd13 State.reset) = some { Obs.silent with result := some 1 } := by decide

/-- Vectors 1 to 7 of `IBRmatch_i`. -/
theorem test_ibrMatch_masks :
    ibrMatch ⟨0x400000, k4k, 0xF, true⟩ 0 0x400FF0 = true ∧ ibrMatch ⟨0x400000, k4k, 0xF, false⟩ 0 0x401000 = false ∧
    ibrMatch ⟨0x400000, k4k, 1, false⟩ 3 0x400FF0 = false ∧ ibrMatch ⟨0x400000, k4k, 8, false⟩ 3 0x400FF0 = true ∧
    ibrMatch ⟨0x400000, k4k, 0xF, false⟩ 0 0x2000000000400010 = false ∧
    ibrMatch ⟨0, 0, 0xF, false⟩ 0 0x000123456789ABC0 = true ∧
    ibrMatch ⟨0, 0, 0xF, false⟩ 0 0x0004000000000000 = false := by decide

/-- Vectors 8 to 15. -/
theorem test_ibrMatch_sign_extension :
    ibrMatch ⟨0x3FFC000000001000, k4k, 0xF, false⟩ 0 0x3FFC000000001230 = true ∧
    ibrMatch ⟨0x3FFC000000001000, k4k, 0xF, false⟩ 0 0x2004000000001230 = true ∧
    ibrMatch ⟨0x2004000000001000, k4k, 0xF, false⟩ 0 0x3FFC000000001230 = false ∧
    ibrMatch ⟨0x3F04000000001000, 0x07FFFFFFFFF000, 0xF, false⟩ 0 0x3FFC000000001230 = true ∧
    ibrMatch ⟨0x400FFF, k4k, 0xF, false⟩ 0 0x400010 = true ∧
    ibrMatch ⟨0x400000, k4k, 0xF, false⟩ 0 0x0004000000400010 = false ∧
    ibrMatch ⟨0xFFFFFFFFFFFFF000, k4k, 0xF, false⟩ 2 0xFFFFFFFFFFFFFFF0 = true ∧
    ibrMatch ⟨0xFFFFFFFFFFFFF000, k4k, 0xB, false⟩ 2 0xFFFFFFFFFFFFFFF0 = false := by decide

/-! ### Opcode match (95_test_vectors.md 2.3, P2) -/

theorem test_pmc8_pmc9_registers :
    regsAfter (exec (.pmcWr8 0x8800000001FFFFF8) State.reset) =
      some { State.reset.regs with pmc8 := ⟨true, false, false, false, 0x4000000, 0x03FFFFF⟩ } ∧
    regsAfter (exec (.pmcWr9 0xC000000A3FFFFE00) State.reset) =
      some { State.reset.regs with pmc9 := ⟨true, true, false, false, 0x0000005, 0x7FFFFC0⟩ } ∧
    shown (exec .pmcRd8 (pageState true State.reset.env)) = some { Obs.silent with result := some 0xF00000003FFFFFF8 } ∧
    shown (exec .pmcRd9 (pageState true State.reset.env)) = some { Obs.silent with result := some 0x8800000001FFFFF8 } := by
  decide

/-- Vectors 3, 5 to 9, 11, 13, 14, 17, 18, 22, 23 of `Match(PMC[j])`. -/
theorem test_opcodeMatch :
    opcodeMatch (OpMatch.ofImage 0) .M 0 = false ∧
    opcodeMatch (OpMatch.ofImage 0x8800000001FFFFF8) .M 0x10000000000 = true ∧
    opcodeMatch (OpMatch.ofImage 0x8800000001FFFFF8) .M 0x11000000000 = false ∧
    opcodeMatch (OpMatch.ofImage 0x8800000001FFFFF8) .I 0x10000000000 = false ∧
    opcodeMatch (OpMatch.ofImage 0x8800000001FFFFF8) .M 0x10FFFFFFFFF = true ∧
    opcodeMatch (OpMatch.ofImage 0xC000000A3FFFFE00) .M 0x5 = true ∧
    opcodeMatch (OpMatch.ofImage 0xC000000A3FFFFE00) .F 0x5 = false ∧
    opcodeMatch (OpMatch.ofImage 0xC000000A3FFFFE00) .M 0x4 = false ∧
    opcodeMatch (OpMatch.ofImage 0xFFFFFFFE00000000) .B 0x1FFF8001FFF = true ∧
    opcodeMatch (OpMatch.ofImage 0xFFFFFFFE00000000) .B 0x1FFF8001FFE = false ∧
    opcodeMatch (OpMatch.ofImage 0xF000000000000000) .F 0x1 = false ∧
    opcodeMatch (OpMatch.ofImage 0xF000000000000000) .F 0x00008000000 = false := by decide

/-- P2, steps 3 and 4. -/
theorem test_fetch_inside_the_page :
    shown (exec (.evFetch .M 0x10000000000) (pageState false (pageEnv 0x400FE0 3 false false))) =
      some { Obs.silent with
        ibrRangeTag := some true, match8 := some true, match9 := some true, tag8 := some true, tag9 := some true } ∧
    shown (exec (.evFetch .I 0x10000000000) (pageState false (pageEnv 0x400FF0 3 false false))) =
      some { Obs.silent with
        ibrRangeTag := some true, match8 := some true, match9 := some false, tag8 := some true, tag9 := some false } := by
  decide

/-- P2, steps 5 to 8: outside the page, at another level, with PSR.db set, with IBR[5].x set. -/
theorem test_fetch_not_tagged :
    ∀ e ∈ [pageEnv 0x401000 3 false false, pageEnv 0x400FE0 0 false false, pageEnv 0x400FE0 3 true false,
           pageEnv 0x400FE0 3 false true],
      shown (exec (.evFetch .M 0x10000000000) (pageState false e)) =
        some { Obs.silent with
          ibrRangeTag := some false, match8 := some true, match9 := some true, tag8 := some false, tag9 := some false } := by
  decide

theorem test_fetch32 :
    shown (exec .evFetch32 (pageState true (pageEnv 0 0 false false))) =
      some { Obs.silent with ibrRangeTag := some true, tag8 := some false, tag9 := some false } ∧
    shown (exec .evFetch32 (pageState false (pageEnv 0x400FE0 3 false false))) =
      some { Obs.silent with ibrRangeTag := some false, tag8 := some false, tag9 := some false } := by decide

/-! ### Data range check (95_test_vectors.md 2.4, 2.5, P4) -/

/-- The pair of 95_test_vectors.md 2.4, with any r, w and plm. -/
def pair64k (plm : BitVec 4) (r w : Bool) : DbrPair := ⟨0x6000000000010000, 0xFFFFFFFFFF0000, plm, r, w⟩

theorem test_dbrMatch_inside :
    dbrMatch (pair64k 0 true false) 0x6000000000010000 = true ∧
    dbrMatch (pair64k 0 false true) 0x600000000001ABCD = true ∧
    dbrMatch (pair64k 15 false false) 0x600000000001FFFF = true := by decide

theorem test_dbrMatch_outside :
    dbrMatch (pair64k 0 true false) 0x600000000000FFFF = false ∧
    dbrMatch (pair64k 0 false true) 0x6000000000020000 = false ∧
    dbrMatch (pair64k 15 true true) 0x4000000000010000 = false := by decide

theorem test_memref :
    shown (exec (.evMemref 0x600000000001ABCD true) (rangeState false false)) =
      some { Obs.silent with dbrRangeMatch := some true, dbrRangeTag := some true } ∧
    shown (exec (.evMemref 0x600000000001ABCD false) (rangeState true false)) =
      some { Obs.silent with dbrRangeMatch := some true, dbrRangeTag := some false } ∧
    shown (exec (.evMemref 0x6000000000020000 true) (rangeState true true)) =
      some { Obs.silent with dbrRangeMatch := some false, dbrRangeTag := some true } := by decide

theorem test_rseVhpt :
    shown (exec (.evRseVhpt 0x6000000000010040 false) (rangeState false false)) =
      some { Obs.silent with rangeTag := some true } ∧
    shown (exec (.evRseVhpt 0x6000000000010040 true) (rangeState false true)) =
      some { Obs.silent with rangeTag := some false } ∧
    shown (exec (.evRseVhpt 0x6000000000010040 false) (rangeState true false)) =
      some { Obs.silent with rangeTag := some false } := by decide

/-- R90: 0 written makes pt 0, whatever PT_BIT is. -/
theorem test_pmc11_write_zero : regsAfter (exec (.pmcWr11 0) (rangeState true false)) = some State.reset.regs := by
  simp [regsAfter, exec, execPmcWr11, store, State.setRegs, State.show, rangeState, pmc11Pt, State.reset]

/-! ### Instruction EAR (95_test_vectors.md 2.6, P5) -/

theorem test_pmc10 :
    regsAfter (exec (.pmcWr10 0x000000000003000F) State.reset) =
      some { State.reset.regs with pmc10 := ⟨0xF, false, false, 3, 0⟩ } ∧
    shown (exec .pmcRd10 { State.reset with regs := { State.reset.regs with pmc10 := ⟨0xF, true, true, 0xF, 3⟩ } }) =
      some { Obs.silent with result := some 0x030F00CF } := by decide

/-- P5, step 5: frozen, so not enabled. -/
theorem test_capture_frozen :
    regsAfter (exec (.evIearCapture 0x200000000003000 90) (capturedState true false)) =
      some (capturedState true false).regs ∧
    shown (exec (.evIearCapture 0x200000000003000 90) (capturedState true false)) = some Obs.notTaken := by decide

/-- P5, step 3, the capture branch, for any draw. -/
theorem test_capture_stores (drawn : Word) :
    (State.reset.regs.capture 0x200000000002001 37 drawn).pmd0.line = 0x200000000002001 ∧
    (State.reset.regs.capture 0x200000000002001 37 drawn).pmd0.v = true ∧
    (State.reset.regs.capture 0x200000000002001 37 drawn).pmd1.latency = 37 := ⟨rfl, rfl, rfl⟩

/-- P5, step 6: one of the two values, for any draw. -/
theorem test_pmd0_read (drawn : Word) :
    pmd0Image (capturedState true false).regs drawn = 0x4000000000040021 ∨
    pmd0Image (capturedState true false).regs drawn = 0x4000000000040023 := by
  have h : ∀ b : Bool, (0x200000000002001#59 ++ 0#3 ++ BitVec.ofBool b ++ BitVec.ofBool true : Word) = 0x4000000000040021 ∨
      (0x200000000002001#59 ++ 0#3 ++ BitVec.ofBool b ++ BitVec.ofBool true : Word) = 0x4000000000040023 := by decide
  exact h (bit drawn 1)

/-- P5, step 7, for any draw. -/
theorem test_pmd1_read (drawn : Word) : pmd1Image (capturedState true false).regs drawn = 0x25 := by
  have h : (0#52 ++ 37#12 : Word) = 0x25 := by decide
  exact h

theorem test_pmd_refusals :
    refusal (exec .pmdRd0 (capturedState true true)) = some .tlbModeNotInSource ∧
    refusal (exec .pmdRd1 (capturedState true true)) = some .tlbModeNotInSource ∧
    refusal (exec .pmdRd2 (capturedState true false)) = some .dataEarLayoutNotInSource ∧
    refusal (exec .pmdRd3 (capturedState true false)) = some .dataEarLayoutNotInSource ∧
    refusal (exec .pmdRd17 (capturedState true false)) = some .dataEarLayoutNotInSource := by decide

/-! ### The `mov` rows (G1) -/

theorem test_movToPmc :
    regsAfter (exec (.movToPmc 8 9 1) (movState 13 2 0)) = some { State.reset.regs with ta := false } ∧
    regsAfter (exec (.movToPmc 8 9 2) (movState 13 2 0)) = some State.reset.regs ∧
    faultOf (exec (.movToPmc 8 9 1) (movState 13 2 3)) = some .privilegedOperation := by decide

theorem test_movFromPmc :
    shown (exec (.movFromPmc 5 8 0) (movState 13 0 0)) = some { Obs.silent with result := some 1 } ∧
    refusal (exec (.movFromPmc 5 8 0) (movState 12 0 0)) = some (.noRuleForRegister 12) := by decide

theorem test_movToPmd : refusal (exec (.movToPmd 8 9 0) (movState 4 1 0)) = some (.pmdWriteNotInSource 4) := by decide

theorem test_movFromPmd :
    refusal (exec (.movFromPmd 5 8 0) (movState 4 0 0)) = some (.noRuleForRegister 4) ∧
    faultOf (exec (.movFromPmd 0 8 0) (movState 0 0 0)) = some .targetIsRegister0 := by decide

/-! ### Witnesses: the hypotheses of each statement are met -/

theorem witness_DecodingTheEncodingGivesTheOperation :
    ((Instr.movFromPmd 127 127 63).wellFormed = true ∧
      ∀ line lat, Instr.movFromPmd 127 127 63 = .evIearCapture line lat → lat < 2 ^ 0) ∧
    ((Instr.evIearCapture 0x7FFFFFFFFFFFFFF (2 ^ 65 - 1)).wellFormed = true ∧
      ∀ line lat, Instr.evIearCapture 0x7FFFFFFFFFFFFFF (2 ^ 65 - 1) = .evIearCapture line lat → lat < 2 ^ 65) := by
  refine ⟨⟨rfl, fun _ _ h => nomatch h⟩, rfl, fun _ _ h => ?_⟩
  cases h
  decide

theorem witness_EachAbstractOperationHasOneImage :
    decode ⟨4, 0xF0, 0, 0⟩ = .ok (.evOvf 15) ∧ (4 : BitVec 7) ≠ 0 := by decide

theorem witness_IndicesAndTypesWithoutARuleAreRejected :
    (4#41).toNat ∉ [0, 1, 2, 3, 8, 9, 10, 11, 13] ∧ (12#41).toNat ∉ [0, 1, 2, 3, 8, 9, 10, 11, 13] ∧
    (14#41).toNat ∉ [0, 1, 2, 3, 8, 9, 10, 11, 13] ∧ (4#41).toNat ∉ [0, 1, 2, 3, 17] ∧
    (18#41).toNat ∉ [0, 1, 2, 3, 17] ∧ 3 < (4#64).toNat := by decide

/-- The three outcomes of the executed operation. -/
theorem witness_StepRunsTheDecodedOperation :
    (∃ t, decode (indexed 1 13 0) = .ok .pmcRd13 ∧ exec .pmcRd13 { (oneRequest (indexed 1 13 0)) with inbox := [] } = .next t) ∧
    (∃ m f, decode m = .ok (.movFromPmc 0 0 0) ∧ exec (.movFromPmc 0 0 0) { (oneRequest m) with inbox := [] } = .fault f) ∧
    (∃ m f, decode m = .ok (.movToPmd 0 0 0) ∧ exec (.movToPmd 0 0 0) { (oneRequest m) with inbox := [] } = .refused f) :=
  ⟨⟨_, by decide, rfl⟩, ⟨encode (.movFromPmc 0 0 0), _, by decide, rfl⟩, ⟨encode (.movToPmd 0 0 0), _, by decide, rfl⟩⟩

theorem witness_StepRefusesWhatIsNoOperation :
    (oneRequest (indexed 1 4 0)).inbox = [⟨State.reset.env, indexed 1 4 0⟩] ∧
    decode (indexed 1 4 0) = .error (.noRuleForRegister 4) ∧ State.reset.inbox = [] := by decide

theorem witness_PlacedOperationIsExecutedNext :
    ∃ t, decodeTableWord 48 0b0001_0_000_000100_0001000_0001001_0000000_000000 = some (.movToPmc 8 9 0) ∧
      exec (.movToPmc 8 9 0) (movState 13 0 0) = .next t := ⟨_, by decide, rfl⟩

/-- Both sides of `reEnabled`; the clauses on IEAR_CLEAR_ON_ENABLE are cases of an open parameter, one of which holds. -/
theorem witness_WriteOfPmc0StoresFreezeAndOverflow :
    ((withPmc0 true 0 0).regs.pmc0.fr = true ∧ (0x30 : Word).getLsbD 0 = false) ∧
    ¬ ((withPmc0 false 0 0).regs.pmc0.fr = true ∧ (0x30 : Word).getLsbD 0 = false) ∧
    (Config.iearClearOnEnable = .either ∨ Config.iearClearOnEnable = .clear ∨ Config.iearClearOnEnable = .keep) :=
  ⟨by decide, by decide, by cases Config.iearClearOnEnable <;> simp⟩

theorem witness_OverflowSetsItsBitsAndFreezes : (0b0100 : BitVec 4) ≠ 0 ∧ (withPmc0 false 0 0b0100).regs.pmc0.fr = false := by
  decide

theorem witness_FrozenUnitTakesNoOverflowAndNoCapture : (0b0100 : BitVec 4) ≠ 0 ∧ (withPmc0 true 3 6).regs.pmc0.fr = true := by
  decide

theorem witness_HardwareOnlySetsBitsOfPmc0 :
    ∃ t, (Instr.evOvf 3).agent = .hardware ∧ exec (.evOvf 3) (withPmc0 false 9 6) = .next t ∧
      (withPmc0 false 9 6).regs.pmc0.overflow.getLsbD 3 = true ∧ t.obs.pmiRequest = true :=
  ⟨_, rfl, rfl, by decide, by decide⟩

theorem witness_HardwareOnlySetsBitsOfPmc0_frozen :
    ∃ t, Instr.evFetch32.agent = .hardware ∧ exec .evFetch32 (withPmc0 true 9 6) = .next t ∧
      (withPmc0 true 9 6).regs.pmc0.fr = true := ⟨_, rfl, rfl, rfl⟩

/-- `PMC.WR 0, 0x30` in a frozen state, whichever way the capture state goes. -/
theorem witness_OnlyASoftwareWriteEndsAFreeze :
    ∃ t, step { (withPmc0 true 3 0) with inbox := [⟨State.reset.env, encode (.pmcWr0 0x30)⟩] } = .next t ∧
      t.regs.pmc0.fr = false := by
  refine ⟨_, rfl, ?_⟩
  simp only [Regs.restartCollection]
  split <;> rfl

theorem witness_ReadAfterWriteIsTheWriteMasked :
    ∀ i ∈ [Instr.pmcWr0 0xFF, .pmcWr1 0xFF, .pmcWr2 0xFF, .pmcWr3 0xFF, .pmcWr8 0xFF, .pmcWr9 0xFF, .pmcWr10 0xFF,
           .pmcWr13 0xFF], ∃ t, exec i State.reset = .next t := by
  simp [exec, execPmcWr0, reEnables, State.reset, execPmcWr1, execPmcWr2, execPmcWr3, execPmcWr8, execPmcWr9, execPmcWr10,
    execPmcWr13, store, noEffect]

/-- An address whose bits 60:51 are not copies of bit 50, beside the one whose bits are. -/
theorem witness_UnimplementedAddressBitsAreNotLookedAt :
    (∀ b ≤ 50, (0x3FFC000000001230 : Word).getLsbD b = (0x2004000000001230 : Word).getLsbD b) ∧
    (∀ b ≤ 60, 51 ≤ b → (0x3FFC000000001230 : Word).getLsbD b = (0x2004000000001230 : Word).getLsbD 50) ∧
    (∀ b ≤ 63, 61 ≤ b → (0x3FFC000000001230 : Word).getLsbD b = (0x2004000000001230 : Word).getLsbD b) ∧
    ibrMatch ⟨0x3FFC000000001000, k4k, 0xF, false⟩ 0 0x2004000000001230 = true ∧
    dbrMatch ⟨0x3FFC000000001000, k4k, 0, false, false⟩ 0x2004000000001230 = true := by decide

theorem witness_RangeTagByInstructionSet :
    (pageState true (pageEnv 0 0 true true)).seesPresent ∧ (pageState true (pageEnv 0 0 true true)).regs.ta = true ∧
    (let s := pageState false (pageEnv 0x400FFF 3 false false)
     s.seesPresent ∧ s.regs.ta = false ∧ s.env.psr.is = false ∧ s.env.psr.db = false ∧
     (∀ k : Fin 4, s.env.ibr[k].x = false) ∧ ∃ k : Fin 4, ibrMatch s.env.ibr[k] s.env.psr.cpl s.env.ip = true) :=
  ⟨rfl, rfl, rfl, rfl, rfl, rfl, by decide, by decide⟩

theorem witness_BreakpointUseSwitchesTheRangeOff :
    (pageState false (pageEnv 0x400FE0 3 true false)).seen.ta = false ∧
    (pageEnv 0x400FE0 3 true false).psr.db = true ∧
    (pageState false (pageEnv 0x400FE0 3 false true)).seen.ta = false ∧
    (pageEnv 0x400FE0 3 false true).psr.db = false ∧
    (∃ k : Fin 4, (pageEnv 0x400FE0 3 false true).ibr[k].x = true) := by
  decide

/-- Two encodings that differ in all of bits 26:13, matched by a register that masks nothing. -/
theorem witness_EncodingIsMatchedInItsOuterBitsOnly :
    (∀ b < 41, b ≤ 12 ∨ 27 ≤ b → (0x1FFF8001FFF : BitVec 41).getLsbD b = (0x1FFFFFFFFFF : BitVec 41).getLsbD b) ∧
    (OpMatch.ofImage 0xFFFFFFFE00000000).maskBits = 0 ∧
    opcodeMatch (OpMatch.ofImage 0xFFFFFFFE00000000) .B 0x1FFF8001FFF = true ∧
    opcodeMatch (OpMatch.ofImage 0xFFFFFFFE00000000) .B 0x1FFFFFFFFFF = true := by decide

theorem witness_MatchAllRecipeMatchesEveryInstruction :
    (0xF00000003FFFFFF8 : Word).extractLsb' 60 4 = 0xF ∧ (0xF00000003FFFFFF8 : Word).extractLsb' 3 27 = 0x7FFFFFF ∧
    State.reset.seesPresent := ⟨by decide, by decide, rfl⟩

theorem witness_ReferenceSemanticsSeesThePresentRegisters : State.reset.seesPresent := rfl

/-- A state that sees one step back, and whose last step changed none of the registers. -/
theorem witness_SeenValuesAreWithinTheSyncDelay :
    let s : State := { State.reset with
      env := { State.reset.env with lag := ⟨1, 1, 1, 1⟩ },
      past := [⟨State.reset.regs.ta, State.reset.regs.pmc8, State.reset.regs.pmc9, State.reset.regs.pt⟩] }
    ∀ g ∈ s.past.take Config.syncDelay, g = ⟨s.regs.ta, s.regs.pmc8, s.regs.pmc9, s.regs.pt⟩ := by
  intro s g hg
  simpa [s] using List.mem_of_mem_take hg

theorem witness_FetchAfterWriteSeesTheNewTagAll :
    decode (encode (.pmcWr13 0)) = .ok (.pmcWr13 0) ∧
    decode (encode (.evFetch .B 0x1FFFFFFFFFF)) = .ok (.evFetch .B 0x1FFFFFFFFFF) ∧
    (pageEnv 0x400FE0 3 false false).lag.ta = 0 := by decide

/-- Two states that differ in the freeze bit and the overflow bits; the first against one with another record. -/
theorem witness_TagsDependOnTagRegistersRecordAndInputsAlone :
    (Instr.evFetch .M 0).isTagEvent = true ∧ (withPmc0 true 3 0).tagRegs = (withPmc0 false 0 0).tagRegs ∧
    (withPmc0 true 3 0).env = (withPmc0 false 0 0).env ∧
    (withPmc0 true 3 0).past.take Config.syncDelay = (withPmc0 false 0 0).past.take Config.syncDelay ∧
    withPmc0 true 3 0 ≠ withPmc0 false 0 0 ∧ (withPmc0 true 3 0).seesPresent ∧
    { (withPmc0 false 0 0) with past := [⟨false, ⟨true, true, true, true, 0, 0⟩, ⟨true, true, true, true, 0, 0⟩, true⟩] }.tagRegs =
      (withPmc0 true 3 0).tagRegs := ⟨rfl, rfl, rfl, rfl, by decide, rfl, rfl⟩

theorem witness_RseAndVhptReferencesAreTaggedByRangeOrTag8 :
    (rangeState true false).seen.pt = true ∧ (rangeState false false).seen.pt = false ∧
    (rangeState false false).env.psr.db = false ∧
    ∃ k : Fin 4, dbrMatch (rangeState false false).env.dbr[k] 0x600000000001FFFF = true := by decide

/-- Where IEAR_QUALIFY, an open parameter, admits a miss, one beyond the threshold is enabled. -/
theorem witness_QualifiedMissIsCapturedOrDropped
    (h : Config.iearQualify 0 false 0 false false 0 = true) :
    captureEnabled State.reset.regs State.reset.env (Config.iearThreshold 0 + 1) = true := by
  simpa [captureEnabled, State.reset] using h

/-- Each of the first three reasons; the fourth is a value of the open parameter IEAR_QUALIFY. -/
theorem witness_UnqualifiedMissIsNotCaptured :
    (withPmc0 true 0 0).regs.pmc0.fr = true ∧ (capturedState false true).regs.pmc10.tlb = true ∧
    0 ≤ Config.iearThreshold State.reset.regs.pmc10.umask ∧
    Config.iearThreshold State.reset.regs.pmc10.umask ≤ Config.iearThreshold State.reset.regs.pmc10.umask :=
  ⟨rfl, rfl, Nat.zero_le _, Nat.le_refl _⟩

/-- The three cases of a read of PMD[0] and PMD[1], the two of the data EAR, with and without a capture. -/
theorem witness_ReadOfPmd0ReportsTheCapturedLine :
    (capturedState false false).regs.pmc0.fr = false ∧
    ((capturedState true true).regs.pmc0.fr = true ∧ (capturedState true true).regs.pmc10.tlb = true) ∧
    ((capturedState true false).regs.pmc0.fr = true ∧ (capturedState true false).regs.pmc10.tlb = false) := by decide

theorem witness_ReadOfPmd1ReportsTheLatency :
    (capturedState true false).regs.iearCaptured = true ∧ (withPmc0 true 0 0).regs.iearCaptured = false ∧
    (withPmc0 true 0 0).regs.pmc0.fr = true ∧ (withPmc0 true 0 0).regs.pmc10.tlb = false := by decide

theorem witness_ReadOfTheDataEarIsFreeOrRefused :
    State.reset.regs.pmc0.fr = false ∧ (withPmc0 true 0 0).regs.pmc0.fr = true := by decide

/-- A capture of the longest latency that fits, then an overflow that freezes. -/
theorem witness_FrozenReadsReportOneMiss :
    let r : Regs := { State.reset.regs with pmc10 := ⟨0xF, false, false, 3, 0⟩ }
    let c : State := { State.reset with regs := r.capture 0x200000000002001 4095 0, env := { State.reset.env with oi := 2 } }
    ∃ f, c.regs = r.capture 0x200000000002001 4095 0 ∧ r.pmc10.tlb = false ∧ exec (.evOvf 2) c = .next f ∧
      f.regs.pmc0.fr = true := ⟨_, rfl, rfl, rfl, by decide⟩

/-- A `mov` that changes general register 5. -/
theorem witness_OperationsKeepInputsAndCoreRegisters :
    ∃ t, exec (.movFromPmc 5 8 0) (movState 13 0 0) = .next t ∧
      t.core.readGr 5 ≠ (movState 13 0 0).core.readGr 5 := ⟨_, rfl, by decide⟩

theorem witness_ReadsAndTagEventsChangeNoRegister :
    (∃ t, Instr.pmdRd1.isRead = true ∧ exec .pmdRd1 (capturedState true false) = .next t) ∧
    ∃ t, Instr.evFetch32.isTagEvent = true ∧ exec .evFetch32 State.reset = .next t := ⟨⟨_, rfl, rfl⟩, ⟨_, rfl, rfl⟩⟩

theorem witness_EachAgentWritesItsOwnRegisters :
    (∃ t, (Instr.evOvf 1).agent = .hardware ∧ exec (.evOvf 1) State.reset = .next t) ∧
    ∃ t, (Instr.pmcWr13 0).agent = .software ∧ exec (.pmcWr13 0) (capturedState true false) = .next t ∧
      t.regs.iearCaptured = true := ⟨⟨_, rfl, rfl⟩, ⟨_, rfl, rfl, rfl⟩⟩

/-- A write of PMC[0] that re-enables collection, in a state where a miss was captured. -/
theorem witness_StepKeepsTheValidBitEqualToIearCaptured :
    ∃ t, { (capturedState true false) with inbox := [⟨State.reset.env, encode (.pmcWr0 0)⟩] }.captureConsistent ∧
      step { (capturedState true false) with inbox := [⟨State.reset.env, encode (.pmcWr0 0)⟩] } = .next t ∧
      reEnables (capturedState true false).regs.pmc0 (Pmc0.ofImage 0) = true := ⟨_, rfl, rfl, by decide⟩

/-- A capture, where the open parameter IEAR_QUALIFY admits the miss and the draw takes it. -/
theorem witness_StepKeepsTheValidBitEqualToIearCaptured_capture (hq : Config.iearQualify 0 false 0 false false 0 = true)
    (hd : bit (Config.freeValue 0) 0 = true) :
    ∃ t, step (oneRequest (encode (.evIearCapture 1 (Config.iearThreshold 0 + 1)))) = .next t ∧
      State.reset.captureConsistent ∧ t.regs.iearCaptured = true := by
  have e : exec (.evIearCapture 1 (Config.iearThreshold 0 + 1)) State.reset =
      store (State.reset.regs.capture 1 (Config.iearThreshold 0 + 1) State.reset.drawn) State.reset.afterDraw := by
    show execEvIearCapture _ _ _ = _
    rw [execEvIearCapture, if_pos (witness_QualifiedMissIsCapturedOrDropped hq)]
    exact if_pos hd
  exact ⟨_, congrArg (remember (oneRequest (encode (.evIearCapture 1 (Config.iearThreshold 0 + 1))))) e, rfl, rfl⟩

theorem witness_FrozenDataRegistersAreStable :
    ∃ t, step { (capturedState true false) with inbox := [⟨State.reset.env, encode (.pmcWr0 1)⟩] } = .next t ∧
      (capturedState true false).regs.pmc0.fr = true ∧ t.regs.pmc0.fr = true := ⟨_, rfl, rfl, by decide⟩

/-- The predicate false, the level wrong, the indices with a rule at the ends of their ranges, and those beside them without. -/
theorem witness_MovToPmcPerformsTheIndexedWrite :
    (movState 0 0 0).core.readPr 2 = false ∧
    ((movState 0 0 3).core.readPr 1 = true ∧ (movState 0 0 3).env.psr.cpl ≠ 0) ∧
    (∀ n ∈ [0, 3, 8, 11, 13], (movState (BitVec.ofNat 64 n) 0 0).core.readPr 1 = true ∧
      (movState (BitVec.ofNat 64 n) 0 0).env.psr.cpl = 0 ∧ ((movState (BitVec.ofNat 64 n) 0 0).core.readGr 8).toNat = n) ∧
    (∀ n ∈ [4, 7, 12, 14, 0xFFFFFFFFFFFFFFFF], (movState (BitVec.ofNat 64 n) 0 0).core.readPr 1 = true ∧
      ((movState (BitVec.ofNat 64 n) 0 0).core.readGr 8).toNat ∉ [0, 1, 2, 3, 8, 9, 10, 11, 13]) := by decide

theorem witness_MovToPmdIsRefusedUnlessPredicatedOff :
    (movState 4 0 0).core.readPr 2 = false ∧ ((movState 4 0 3).core.readPr 1 = true ∧ (movState 4 0 3).env.psr.cpl ≠ 0) ∧
    ((movState 4 0 0).core.readPr 1 = true ∧ (movState 4 0 0).env.psr.cpl = 0) := by decide

theorem witness_MovFromPmcTakesTheIndexedRead :
    (movState 0 0 0).core.readPr 2 = false ∧ (movState 0 0 0).core.readPr 1 = true ∧ (127 : BitVec 7) ≠ 0 ∧
    (movState 0 0 1).env.psr.cpl ≠ 0 ∧ (movState 0 0 1).core.readPr 1 = true ∧
    (∀ n ∈ [0, 3, 8, 11, 13], (movState (BitVec.ofNat 64 n) 0 0).core.readPr 1 = true ∧
      (movState (BitVec.ofNat 64 n) 0 0).env.psr.cpl = 0 ∧ ((movState (BitVec.ofNat 64 n) 0 0).core.readGr 8).toNat = n) ∧
    (∀ n ∈ [4, 7, 12, 14, 0xFFFFFFFFFFFFFFFF],
      ((movState (BitVec.ofNat 64 n) 0 0).core.readGr 8).toNat ∉ [0, 1, 2, 3, 8, 9, 10, 11, 13]) := by decide

/-- The last clause depends on an open parameter of the recollection behind the row, met where it refuses the read. -/
theorem witness_MovFromPmdTakesTheIndexedRead (h : Config.pmdReadAllowed 3 false 0 = false) :
    ((movState 17 0 0).core.readPr 1 = true ∧ (127 : BitVec 7) ≠ 0 ∧ (movState 17 0 0).env.psr.cpl = 0 ∧
      ((movState 17 0 0).core.readGr 8).toNat = 17 ∧ (movState 17 0 0).regs.pmc0.fr = false) ∧
    (∀ n ∈ [0, 1, 3, 17], ((movState (BitVec.ofNat 64 n) 0 0).core.readGr 8).toNat = n) ∧
    (∀ n ∈ [4, 16, 18, 0xFFFFFFFFFFFFFFFF], ((movState (BitVec.ofNat 64 n) 0 0).core.readGr 8).toNat ∉ [0, 1, 2, 3, 17]) ∧
    ((movState 1 0 3).env.psr.cpl ≠ 0 ∧
      Config.pmdReadAllowed (movState 1 0 3).env.psr.cpl (movState 1 0 3).env.psr.sp (movState 1 0 3).draws = false) :=
  ⟨by decide, by decide, by decide, by decide, h⟩

/-- A read that stops, through which the `mov` stops. -/
theorem witness_MovFromPmdTakesTheIndexedRead_stops :
    ∃ f, exec .pmdRd17 { (movState 17 0 0) with regs := (withPmc0 true 0 0).regs } = .refused f := ⟨_, rfl⟩

end Sys2Proof.Tests
end

/-! Proofs about the scope of the model (00_scope.md): a step runs the decoded operation, and each agent writes its own
registers. -/

namespace Sys2Proof.Machine

/-- A step whose request decodes is the decoded operation, with the inputs it came with, and the memory of the tag
registers around it. -/
theorem step_eq_remember_exec {s : State} {r : Request} {rest : List Request} {i : Instr}
    (hin : s.inbox = r :: rest) (hdec : decode r.image = .ok i) :
    step s = remember s (exec i (s.accept r rest)) := by
  simp only [step, hin, hdec]

/-- Settles O6: the step is `remember` of the executed operation, and `remember` adds the tag registers to a next state
and passes a fault or a refusal on. -/
theorem stepRunsTheDecodedOperation : Obligations.StepRunsTheDecodedOperation := by
  intro s r rest i hin hdec
  have hstep := step_eq_remember_exec hin hdec
  exact ⟨fun _ h => hstep.trans (congrArg (remember s) h), fun _ h => hstep.trans (congrArg (remember s) h),
    fun _ h => hstep.trans (congrArg (remember s) h)⟩

/-- Re-enabling collection leaves the registers as they are, or clears `iear_captured` and the valid bit (R107). -/
theorem restartCollection_eq_self_or_cleared (r : Regs) (drawn : Word) :
    r.restartCollection drawn = r ∨
    r.restartCollection drawn = { r with iearCaptured := false, pmd0 := { r.pmd0 with v := false } } := by
  unfold Regs.restartCollection
  split
  · exact .inr rfl
  · exact .inl rfl

/-- The configuration registers, PMC[0] apart, which hardware leaves alone. -/
def Regs.sameConfiguration (r r' : Regs) : Prop :=
  r'.pmc8 = r.pmc8 ∧ r'.pmc9 = r.pmc9 ∧ r'.pmc10 = r.pmc10 ∧ r'.pt = r.pt ∧ r'.ta = r.ta

/-- The captured data, which software leaves alone; it may drop the claim that there is any, but never make it. -/
def Regs.sameOrDroppedCapture (r r' : Regs) : Prop :=
  r'.pmd0.line = r.pmd0.line ∧ r'.pmd0.tlb = r.pmd0.tlb ∧ r'.pmd1 = r.pmd1 ∧
  (r'.iearCaptured = true → r.iearCaptured = true)

theorem restartCollection_sameConfiguration (r : Regs) (drawn : Word) :
    r.sameConfiguration (r.restartCollection drawn) := by
  obtain h | h := restartCollection_eq_self_or_cleared r drawn
  · rw [h]; exact ⟨rfl, rfl, rfl, rfl, rfl⟩
  · rw [h]; exact ⟨rfl, rfl, rfl, rfl, rfl⟩

theorem restartCollection_sameOrDroppedCapture (r : Regs) (drawn : Word) :
    r.sameOrDroppedCapture (r.restartCollection drawn) := by
  obtain h | h := restartCollection_eq_self_or_cleared r drawn
  · rw [h]; exact ⟨rfl, rfl, rfl, id⟩
  · rw [h]; exact ⟨rfl, rfl, rfl, nofun⟩

section Agents

variable {i : Instr} {s t : State}

/-- Of all effects only `configured` writes a configuration register, and that one is software's. -/
theorem Effect.sameConfiguration_of_hardware (h : Effect i s t) (hw : i.agent = .hardware) :
    s.regs.sameConfiguration t.regs := by
  cases h with
  | configured _ hi => rw [hi] at hw; cases hw
  | restarted v => exact restartCollection_sameConfiguration { s.regs with pmc0 := Pmc0.ofImage v } s.drawn
  | shown | taken | pmc0Written | overflowed | captured => exact ⟨rfl, rfl, rfl, rfl, rfl⟩

/-- Of all effects only `captured` writes the line or the latency, and that one is hardware's. -/
theorem Effect.sameOrDroppedCapture_of_software (h : Effect i s t) (hw : i.agent = .software) :
    s.regs.sameOrDroppedCapture t.regs := by
  cases h with
  | captured _ _ hi => rw [hi] at hw; cases hw
  | restarted v => exact restartCollection_sameOrDroppedCapture { s.regs with pmc0 := Pmc0.ofImage v } s.drawn
  | configured _ _ _ _ hd0 hd1 hc => exact ⟨congrArg (·.line) hd0, congrArg (·.tlb) hd0, hd1, hc ▸ id⟩
  | shown | taken | pmc0Written | overflowed => exact ⟨rfl, rfl, rfl, id⟩

end Agents

/-- Settles O51, by the cases of what an operation can do. -/
theorem eachAgentWritesItsOwnRegisters : Obligations.EachAgentWritesItsOwnRegisters :=
  fun _ _ _ h => ⟨(exec_effect h).sameConfiguration_of_hardware, (exec_effect h).sameOrDroppedCapture_of_software⟩

end Sys2Proof.Machine

/-! Proofs about the state of the unit (10_state.md): the invariant of the valid bit, what no operation changes, the
registers without state, and the tag at reset. -/

namespace Sys2Proof.Machine

/-- Re-enabling collection clears the valid bit and `iear_captured`, or neither (R107). -/
theorem restartCollection_keeps_valid_eq_captured {r : Regs} (h : r.pmd0.v = r.iearCaptured) (drawn : Word) :
    (r.restartCollection drawn).pmd0.v = (r.restartCollection drawn).iearCaptured := by
  obtain hr | hr := restartCollection_eq_self_or_cleared r drawn
  · rw [hr]; exact h
  · rw [hr]

section Effects

variable {i : Instr} {s t : State}

/-- A capture sets both bits, a restart clears both or neither, and nothing else writes either. -/
theorem Effect.captureConsistent (h : Effect i s t) (hs : s.captureConsistent) : t.captureConsistent := by
  cases h with
  | captured => rfl
  | restarted v =>
    exact restartCollection_keeps_valid_eq_captured (r := { s.regs with pmc0 := Pmc0.ofImage v }) hs s.drawn
  | configured r _ _ _ hd0 _ hc =>
    calc r.pmd0.v = s.regs.pmd0.v := by rw [hd0]
      _ = s.regs.iearCaptured := hs
      _ = r.iearCaptured := hc.symm
  | shown | taken | pmc0Written | overflowed => exact hs

theorem Effect.keepsInputs (h : Effect i s t) : s.keepsInputs t := by
  cases h with
  | shown | taken | configured | pmc0Written | restarted | overflowed | captured => exact ⟨rfl, rfl, rfl⟩

/-- The count of draws never falls. -/
theorem Effect.draws_le (h : Effect i s t) : s.draws ≤ t.draws := by
  cases h with
  | shown n | taken n => exact Nat.le_add_right _ n
  | restarted | captured => exact Nat.le_succ _
  | configured | pmc0Written | overflowed => exact Nat.le_refl _

/-- The core registers stay, but for the target of a `mov` that reads. -/
theorem Effect.core_eq_or_writeGr (h : Effect i s t) :
    t.core = s.core ∨
    ∃ r1 v, t.core = s.core.writeGr r1 v ∧ ∃ r3 qp, i = .movFromPmc r1 r3 qp ∨ i = .movFromPmd r1 r3 qp := by
  cases h with
  | taken _ _ r1 v _ _ hi => exact .inr ⟨r1, v, rfl, hi⟩
  | shown | configured | pmc0Written | restarted | overflowed | captured => exact .inl rfl

theorem Effect.core_pr (h : Effect i s t) : t.core.pr = s.core.pr := by
  obtain hc | ⟨r1, v, hc, -⟩ := h.core_eq_or_writeGr
  · rw [hc]
  · rw [hc, writeGr_pr]

/-- A general register that reads differently afterwards is the target of a `mov` that reads. -/
theorem Effect.readGr_changed (h : Effect i s t) {r : BitVec 7} (hr : t.core.readGr r ≠ s.core.readGr r) :
    ∃ r3 qp, i = .movFromPmc r r3 qp ∨ i = .movFromPmd r r3 qp := by
  obtain hc | ⟨r1, v, hc, hi⟩ := h.core_eq_or_writeGr
  · exact absurd (by rw [hc]) hr
  · by_cases heq : r = r1
    · exact heq ▸ hi
    · exact absurd (by rw [hc, readGr_writeGr_other _ heq]) hr

end Effects

/-- Settles O52: the idle step changes no register, and any other step is an operation's effect, which keeps the
invariant; the inputs it accepts and the record it extends do not enter. -/
theorem stepKeepsTheValidBitEqualToIearCaptured : Obligations.StepKeepsTheValidBitEqualToIearCaptured := by
  intro s t hs h
  obtain ⟨-, rfl⟩ | ⟨r, rest, i, u, -, -, hexec, rfl⟩ := step_next h
  · exact hs
  · have haccept : (s.accept r rest).captureConsistent := hs
    exact (exec_effect hexec).captureConsistent haccept

/-- Settles O49, by the cases of what an operation can do. -/
theorem operationsKeepInputsAndCoreRegisters : Obligations.OperationsKeepInputsAndCoreRegisters :=
  fun _ _ _ h =>
    have he := exec_effect h
    ⟨he.keepsInputs, he.core_pr, he.draws_le, fun _ => he.readGr_changed⟩

/-- Settles O11: the three reads answer 0, and the three writes have no effect. -/
theorem pmc1To3ReadZeroAndIgnoreWrites : Obligations.Pmc1To3ReadZeroAndIgnoreWrites := by
  intro v s
  simp only [List.forall_mem_cons]
  exact ⟨⟨rfl, rfl, rfl, nofun⟩, rfl, rfl, rfl, nofun⟩

/-- Settles O53: at reset both bits are 0. -/
theorem resetHasTheValidBitEqualToIearCaptured : Obligations.ResetHasTheValidBitEqualToIearCaptured := rfl

/-- With no step before it, the tag functions see the present value, whatever the lag. -/
theorem seenAt_nil {α : Type} (lag : Nat) (now : α) : seenAt lag now [] = now :=
  (seenAt_mem lag now []).resolve_right (by rw [List.take_nil]; exact List.not_mem_nil)

theorem seen_ta_of_past_nil {s : State} (h : s.past = []) : s.seen.ta = s.regs.ta := by
  simp only [State.seen, h, List.map_nil, seenAt_nil]

/-- With `ta` = 1 the range check tags every fetch (R73). -/
theorem ibrRangeTag_of_ta (e : Env) : ibrRangeTag true e = true := Bool.true_or _

/-- Settles O55: nothing is recorded at reset, so both fetches see the reset value of `ta`, and it alone sets the tag. -/
theorem resetTagsEveryInstruction : Obligations.ResetTagsEveryInstruction := by
  refine ⟨rfl, fun itype enco e => ?_⟩
  have hta : (State.seen { State.reset with env := e }).ta = true := seen_ta_of_past_nil rfl
  refine ⟨_, _, rfl, ?_, rfl, congrArg some hta⟩
  calc some (ibrRangeTag (State.seen { State.reset with env := e }).ta e)
      = some (ibrRangeTag true e) := by rw [hta]
    _ = some true := by rw [ibrRangeTag_of_ta]

end Sys2Proof.Machine

/-! Proofs about memory and addresses (20_memory.md): the address bits the matchers do not look at, and what the tag
functions see in the reference semantics. -/

namespace Sys2Proof.Machine

/-- Bits 60:56 of a matching address register are copies of bit 50 of the address; the mask does not reach them. -/
theorem addrMatch_bits_56_to_60 {a : Word} {k : BitVec 56} {x : Word} (h : addrMatch a k x = true) :
    ∀ b, 56 ≤ b → b ≤ 60 → bit a b = bit x 50 := by
  obtain ⟨-, -, hmid, -⟩ := (addrMatch_iff a k x).mp h
  exact hmid

/-- An IBR match implies the match of the address; the privilege level comes on top. -/
theorem addrMatch_of_ibrMatch {p : IbrPair} {c : BitVec 2} {x : Word} (h : ibrMatch p c x = true) :
    addrMatch p.addr p.mask x = true :=
  ((Bool.and_eq_true _ _).mp h).2

/-- Settles O20: both matchers look at an address through `addrMatch` alone, and it reads only bits 50:0 and 63:61. -/
theorem unimplementedAddressBitsAreNotLookedAt : Obligations.UnimplementedAddressBitsAreNotLookedAt := by
  intro p q c x y hlow _ hhigh
  have hsame (a : Word) (k : BitVec 56) : addrMatch a k x = addrMatch a k y :=
    addrMatch_congr a k (fun b hb => (hlow b hb).symm) fun b h1 h2 => (hhigh b h1 h2).symm
  exact ⟨congrArg (bit p.plm c.toNat && ·) (hsame p.addr p.mask), hsame q.addr q.mask,
    fun h => addrMatch_bits_56_to_60 (addrMatch_of_ibrMatch h), addrMatch_bits_56_to_60⟩

/-- Without a lag, or where SYNC_DELAY allows none, the value that is seen is the present one. -/
theorem seenAt_eq_now {α : Type} {lag : Nat} (h : lag = 0 ∨ Config.syncDelay = 0) (now : α) (past : List α) :
    seenAt lag now past = now := by
  obtain rfl | hsync := h
  · rfl
  · refine (seenAt_mem lag now past).resolve_right ?_
    rw [hsync, List.take_zero]
    exact List.not_mem_nil

/-- Settles O32: in both cases each of the four registers is seen at its present value. -/
theorem referenceSemanticsSeesThePresentRegisters : Obligations.ReferenceSemanticsSeesThePresentRegisters := by
  intro s h
  have hta : s.env.lag.ta = 0 ∨ Config.syncDelay = 0 := h.imp_left (congrArg Lag.ta)
  have hpmc8 : s.env.lag.pmc8 = 0 ∨ Config.syncDelay = 0 := h.imp_left (congrArg Lag.pmc8)
  have hpmc9 : s.env.lag.pmc9 = 0 ∨ Config.syncDelay = 0 := h.imp_left (congrArg Lag.pmc9)
  have hpt : s.env.lag.pt = 0 ∨ Config.syncDelay = 0 := h.imp_left (congrArg Lag.pt)
  simp only [State.seen, seenAt_eq_now hta, seenAt_eq_now hpmc8, seenAt_eq_now hpmc9, seenAt_eq_now hpt]

end Sys2Proof.Machine

/-! Proofs about the encoding (30_encoding.md): an image and its operation determine each other, a step runs what its
image decodes to, a read after a write, and the `mov` rows. -/

namespace Sys2Proof

/-- The decoder reads every well-formed operation back from its image, constructor by constructor. -/
theorem decode_encode (i : Instr) (h : i.wellFormed = true) : decode (encode i) = .ok i := by
  cases i with
  | pmcRd0 | pmcRd1 | pmcRd2 | pmcRd3 | pmcRd8 | pmcRd9 | pmcRd10 | pmcRd11 | pmcRd13 => rfl
  | pmcWr0 | pmcWr1 | pmcWr2 | pmcWr3 | pmcWr8 | pmcWr9 | pmcWr10 | pmcWr11 | pmcWr13 => rfl
  | pmdRd0 | pmdRd1 | pmdRd2 | pmdRd3 | pmdRd17 | evFetch32 => rfl
  | evOvf S => exact Laws.ImageRoundTrip.evOvf S h
  | evFetch t e => exact Laws.ImageRoundTrip.evFetch t e h
  | evMemref addr t => exact Laws.ImageRoundTrip.evMemref addr t h
  | evRseVhpt addr t => exact Laws.ImageRoundTrip.evRseVhpt addr t h
  | evIearCapture line lat => exact Laws.ImageRoundTrip.evIearCapture line lat h
  | movToPmc r3 r2 qp => exact Laws.ImageRoundTrip.movToPmc r3 r2 qp h
  | movToPmd r3 r2 qp => exact Laws.ImageRoundTrip.movToPmd r3 r2 qp h
  | movFromPmc r1 r3 qp => exact Laws.ImageRoundTrip.movFromPmc r1 r3 qp h
  | movFromPmd r1 r3 qp => exact Laws.ImageRoundTrip.movFromPmd r1 r3 qp h

theorem decodeTableWord_eq_some_iff {nbits w : Nat} {i : Instr} :
    decodeTableWord nbits w = some i ↔ decode (Image.ofNat (w % 2 ^ nbits)) = .ok i := by
  unfold decodeTableWord
  cases decode (Image.ofNat (w % 2 ^ nbits)) <;> simp

/-- Settles O2: the number of the image fits its bits, so it is read whole; it determines the image, and the image
decodes to the operation. -/
theorem decodingTheEncodingGivesTheOperation : Obligations.DecodingTheEncodingGivesTheOperation := by
  intro i k hwf hlat
  have hfits : (encode i).toNat < 2 ^ (112 + k) := toNat_lt (encode_b_lt hlat)
  rw [decodeTableWord_eq_some_iff, Nat.mod_eq_of_lt hfits, ofNat_toNat]
  exact decode_encode i hwf

/-! ### What an accepting part of the decoder says about the bits it read -/

section Accepts

variable {i : Instr} {u : Bool}

@[simp] theorem ifUnused_eq_ok_iff {j : Instr} : ifUnused u j = .ok i ↔ u = true ∧ j = i := by
  cases u <;> simp [ifUnused]

theorem decodePmcRd_ok {n : Nat} (h : decodePmcRd n u = .ok i) :
    u = true ∧ i.wellFormed = true ∧ encode i = indexed 1 n 0 := by
  unfold decodePmcRd at h
  split at h
  case h_10 => cases h
  all_goals
    obtain ⟨hu, rfl⟩ := ifUnused_eq_ok_iff.mp h
    exact ⟨hu, rfl, rfl⟩

theorem decodePmcWr_ok {n : Nat} {v : Word} (h : decodePmcWr n v u = .ok i) :
    u = true ∧ i.wellFormed = true ∧ encode i = indexed 2 n v := by
  unfold decodePmcWr at h
  split at h
  case h_10 => cases h
  all_goals
    obtain ⟨hu, rfl⟩ := ifUnused_eq_ok_iff.mp h
    exact ⟨hu, rfl, rfl⟩

theorem decodePmdRd_ok {n : Nat} (h : decodePmdRd n u = .ok i) :
    u = true ∧ i.wellFormed = true ∧ encode i = indexed 3 n 0 := by
  unfold decodePmdRd at h
  split at h
  case h_6 => cases h
  all_goals
    obtain ⟨hu, rfl⟩ := ifUnused_eq_ok_iff.mp h
    exact ⟨hu, rfl, rfl⟩

/-- A code that is accepted is the one the encoder uses. -/
theorem decodeIType_ok {n : Nat} {t : IType} (h : decodeIType n = .ok t) : (encodeIType t).toNat = n := by
  unfold decodeIType at h
  split at h <;> cases h <;> rfl

theorem decodeSyllable_ok {enco : BitVec 41} (h : decodeSyllable enco = .ok i) : i.wellFormed = true := by
  unfold decodeSyllable at h
  split_ifs at h <;> cases h <;> rfl

theorem decodeTag8_ok {low : BitVec 41} {f : Bool → Instr} (h : decodeTag8 low f u = .ok i) :
    u = true ∧ ∃ t : Bool, i = f t ∧ low = if t then 1 else 0 := by
  unfold decodeTag8 at h
  split_ifs at h with h0 h1
  · obtain ⟨hu, rfl⟩ := ifUnused_eq_ok_iff.mp h
    exact ⟨hu, false, rfl, h0⟩
  · obtain ⟨hu, rfl⟩ := ifUnused_eq_ok_iff.mp h
    exact ⟨hu, true, rfl, h1⟩

/-- A vector whose outer fields are zero is its middle field between zeros. -/
theorem eq_zeros_field_zeros {low : BitVec 41} (h0 : field low 0 4 = 0) (h1 : field low 8 33 = 0) :
    0#33 ++ field low 4 4 ++ 0#4 = low := by
  rw [show (0#33 : BitVec 33) = field low 8 33 from h1.symm, show (0#4 : BitVec 4) = field low 0 4 from h0.symm,
    BitVec.extractLsb'_append_extractLsb'_eq_extractLsb' (rfl : 8 = 4 + 4),
    BitVec.extractLsb'_append_extractLsb'_eq_extractLsb' (rfl : 4 = 0 + 4)]
  exact BitVec.extractLsb'_eq_self

theorem decodeOvf_ok {low : BitVec 41} (h : decodeOvf low u = .ok i) :
    u = true ∧ ∃ S : BitVec 4, S ≠ 0 ∧ i = .evOvf S ∧ 0#33 ++ S ++ 0#4 = low := by
  unfold decodeOvf at h
  split_ifs at h with hz hS
  obtain ⟨hu, rfl⟩ := ifUnused_eq_ok_iff.mp h
  exact ⟨hu, _, hS, rfl, eq_zeros_field_zeros hz.1 hz.2⟩

end Accepts

/-- A vector whose upper bits are zero is its lower bits extended with zeros. -/
theorem zeros_append_field {a : Word} (h : field a 59 5 = 0) : 0#5 ++ field a 0 59 = a := by
  rw [show (0#5 : BitVec 5) = field a 59 5 from h.symm,
    BitVec.extractLsb'_append_extractLsb'_eq_extractLsb' (rfl : 59 = 0 + 59)]
  exact BitVec.extractLsb'_eq_self

/-- Settles O3: class by class, the part of the decoder that accepts fixes every bit of the image but those a `mov`
syllable ignores. -/
theorem eachAbstractOperationHasOneImage : Obligations.EachAbstractOperationHasOneImage := by
  rintro ⟨cls, low, a, b⟩ i h
  have hcls (n : Nat) (hn : cls.toNat = n) : cls = BitVec.ofNat 7 n := by rw [← hn, BitVec.ofNat_toNat]; simp
  unfold decode at h
  split at h
  case h_1 hc =>
    split_ifs at h
    exact ⟨decodeSyllable_ok h, fun hne => absurd (hcls 0 hc) hne⟩
  case h_2 hc =>
    obtain ⟨hu, hwf, henc⟩ := decodePmcRd_ok h
    obtain ⟨rfl, rfl⟩ : a = 0 ∧ b = 0 := by simpa using hu
    obtain rfl := hcls 1 hc
    exact ⟨hwf, fun _ => by simp [henc, indexed]⟩
  case h_3 hc =>
    obtain ⟨hu, hwf, henc⟩ := decodePmcWr_ok h
    obtain rfl : b = 0 := by simpa using hu
    obtain rfl := hcls 2 hc
    exact ⟨hwf, fun _ => by simp [henc, indexed]⟩
  case h_4 hc =>
    obtain ⟨hu, hwf, henc⟩ := decodePmdRd_ok h
    obtain ⟨rfl, rfl⟩ : a = 0 ∧ b = 0 := by simpa using hu
    obtain rfl := hcls 3 hc
    exact ⟨hwf, fun _ => by simp [henc, indexed]⟩
  case h_5 hc =>
    obtain ⟨hu, S, hS, rfl, rfl⟩ := decodeOvf_ok h
    obtain ⟨rfl, rfl⟩ : a = 0 ∧ b = 0 := by simpa using hu
    obtain rfl := hcls 4 hc
    exact ⟨by simpa [Instr.wellFormed] using hS, fun _ => rfl⟩
  case h_6 hc =>
    split at h
    · obtain ⟨hu, rfl⟩ := ifUnused_eq_ok_iff.mp h
      obtain rfl : b = 0 := by simpa using hu
      obtain rfl := hcls 5 hc
      have ha := BitVec.eq_of_toNat_eq (decodeIType_ok ‹_›)
      exact ⟨rfl, fun _ => congrArg (Image.mk 5 low · 0) ha⟩
    · cases h
  case h_7 hc =>
    obtain ⟨hu, rfl⟩ := ifUnused_eq_ok_iff.mp h
    obtain ⟨⟨rfl, rfl⟩, rfl⟩ : (low = 0 ∧ a = 0) ∧ b = 0 := by simpa using hu
    obtain rfl := hcls 6 hc
    exact ⟨rfl, fun _ => rfl⟩
  case h_8 hc =>
    obtain ⟨hu, t, rfl, rfl⟩ := decodeTag8_ok h
    obtain rfl : b = 0 := by simpa using hu
    obtain rfl := hcls 7 hc
    exact ⟨rfl, fun _ => rfl⟩
  case h_9 hc =>
    obtain ⟨hu, t, rfl, rfl⟩ := decodeTag8_ok h
    obtain rfl : b = 0 := by simpa using hu
    obtain rfl := hcls 8 hc
    exact ⟨rfl, fun _ => rfl⟩
  case h_10 hc =>
    obtain ⟨hu, rfl⟩ := ifUnused_eq_ok_iff.mp h
    obtain ⟨rfl, hhigh⟩ : low = 0 ∧ field a 59 5 = 0 := by simpa using hu
    obtain rfl := hcls 9 hc
    exact ⟨rfl, fun _ => congrArg (Image.mk 9 0 · b) (zeros_append_field hhigh)⟩
  case h_11 => cases h

/-! ### Indices and types without a rule -/

theorem decodePmcRd_noRule {n : Nat} (h : n ∉ [0, 1, 2, 3, 8, 9, 10, 11, 13]) (u : Bool) :
    decodePmcRd n u = .error (.noRuleForRegister n) := by
  unfold decodePmcRd
  split
  case h_10 => rfl
  all_goals exact absurd (by decide) h

theorem decodePmcWr_noRule {n : Nat} (h : n ∉ [0, 1, 2, 3, 8, 9, 10, 11, 13]) (v : Word) (u : Bool) :
    decodePmcWr n v u = .error (.noRuleForRegister n) := by
  unfold decodePmcWr
  split
  case h_10 => rfl
  all_goals exact absurd (by decide) h

theorem decodePmdRd_noRule {n : Nat} (h : n ∉ [0, 1, 2, 3, 17]) (u : Bool) :
    decodePmdRd n u = .error (.noRuleForRegister n) := by
  unfold decodePmdRd
  split
  case h_6 => rfl
  all_goals exact absurd (by decide) h

theorem decodeIType_outside {n : Nat} (h : 3 < n) : decodeIType n = .error (.itypeOutside n) := by
  unfold decodeIType
  split
  case h_5 => rfl
  all_goals omega

/-- Settles O5: each of the four decoders rejects what it has no arm for, whatever the unused operands hold. -/
theorem indicesAndTypesWithoutARuleAreRejected : Obligations.IndicesAndTypesWithoutARuleAreRejected := by
  refine fun low a b => ⟨fun h => ⟨decodePmcRd_noRule h _, decodePmcWr_noRule h a _⟩, fun h => decodePmdRd_noRule h _,
    fun h => ?_⟩
  simp [decode, decodeIType_outside h]

end Sys2Proof

namespace Sys2Proof.Machine

/-! ### The step -/

theorem step_refused_of_decode_error {s : State} {r : Request} {rest : List Request} {e : Reject}
    (hin : s.inbox = r :: rest) (hdec : decode r.image = .error e) : step s = .refused (.undecodable e) := by
  simp only [step, hin, hdec]

theorem step_idle {s : State} (hin : s.inbox = []) : step s = idle s := by
  simp only [step, hin]

/-- Settles O7: the two cases in which a step has no operation to execute. -/
theorem stepRefusesWhatIsNoOperation : Obligations.StepRefusesWhatIsNoOperation :=
  fun _ => ⟨fun _ _ _ => step_refused_of_decode_error, step_idle⟩

/-- Settles O8: the placed image stands first in the inbox with the present inputs, so the step executes its operation
from the very state it was placed in. -/
theorem placedOperationIsExecutedNext : Obligations.PlacedOperationIsExecutedNext := by
  intro s nbits w i t hword hexec
  have hstep := step_eq_remember_exec (s := s.withFetchWord nbits w) rfl (decodeTableWord_eq_some_iff.mp hword)
  rw [hstep, State.withFetchWord, offer_accept, hexec]
  rfl

/-! ### A read after a write -/

/-! The write masks of R53, bit by bit. -/

section WriteMasks

variable {b : Nat} (h : b < 64)
include h

theorem pmc0_writeMask_bit : (0xF1 : Word).getLsbD b = decide (b = 0 ∨ 4 ≤ b ∧ b < 8) := by
  revert b; decide

theorem opMatch_writeMask_bit :
    (0xFFFFFFFE3FFFFFF8 : Word).getLsbD b = decide (3 ≤ b ∧ b < 30 ∨ 33 ≤ b) := by
  revert b; decide

theorem pmc10_writeMask_bit :
    (0x030F00CF : Word).getLsbD b = decide (b < 4 ∨ b = 6 ∨ b = 7 ∨ 16 ≤ b ∧ b < 20 ∨ 24 ≤ b ∧ b < 26) := by
  revert b; decide

end WriteMasks

theorem pmc0_image_ofImage (v : Word) : (Pmc0.ofImage v).image = v &&& 0xF1 := by
  apply BitVec.eq_of_getLsbD_eq
  intro b hb
  rw [pmc0_image_bit, BitVec.getLsbD_and, pmc0_writeMask_bit hb]
  simp only [Pmc0.ofImage, BitVec.getLsbD_extractLsb']
  grind

theorem opMatch_image_ofImage (v : Word) : (OpMatch.ofImage v).image = v &&& 0xFFFFFFFE3FFFFFF8 := by
  apply BitVec.eq_of_getLsbD_eq
  intro b hb
  rw [opMatch_image_bit, BitVec.getLsbD_and, opMatch_writeMask_bit hb]
  simp only [OpMatch.ofImage, BitVec.getLsbD_extractLsb']
  grind (splits := 20)

theorem pmc10_image_ofImage (v : Word) : (Pmc10.ofImage v).image = v &&& 0x030F00CF := by
  apply BitVec.eq_of_getLsbD_eq
  intro b hb
  rw [pmc10_image_bit, BitVec.getLsbD_and, pmc10_writeMask_bit hb]
  simp only [Pmc10.ofImage, BitVec.getLsbD_extractLsb']
  grind (splits := 20)

theorem pmc13_image_ofImage (v : Word) : pmc13Image (pmc13Ta v) = v &&& 1 := by
  apply BitVec.eq_of_getLsbD_eq
  intro b hb
  rw [pmc13_image_bit, BitVec.getLsbD_and]
  by_cases h0 : b = 0 <;> simp [h0, pmc13Ta]

/-- A write of PMC[0] stores its image, whether or not it re-enables collection (R61). -/
theorem regs_pmc0_of_execPmcWr0 {v : Word} {s t : State} (h : execPmcWr0 v s = .next t) :
    t.regs.pmc0 = Pmc0.ofImage v := by
  unfold execPmcWr0 at h
  simp only at h
  split at h
  · cases h
    obtain hr | hr := restartCollection_eq_self_or_cleared { s.regs with pmc0 := Pmc0.ofImage v } s.drawn
    · exact congrArg Regs.pmc0 hr
    · exact congrArg Regs.pmc0 hr
  · cases h; rfl

theorem answer_eq_next {r x : Word} (h : r = x) (t : State) :
    answer r t = .next { t with obs := { Obs.silent with result := some x } } := by
  rw [h]; rfl

/-- Settles O16: each write stores the fields of its value, and the image of those fields is the value masked. -/
theorem readAfterWriteIsTheWriteMasked : Obligations.ReadAfterWriteIsTheWriteMasked := by
  intro v s t
  have hzero : (0 : Word) = v &&& 0 := (BitVec.and_zero).symm
  refine ⟨fun h => answer_eq_next ?_ t, fun _ => answer_eq_next hzero t, fun _ => answer_eq_next hzero t,
    fun _ => answer_eq_next hzero t, fun h => ?_, fun h => ?_, fun h => ?_, fun h => ?_⟩
  · rw [regs_pmc0_of_execPmcWr0 h, pmc0_image_ofImage]
  · cases h; exact answer_eq_next (opMatch_image_ofImage v) _
  · cases h; exact answer_eq_next (opMatch_image_ofImage v) _
  · cases h; exact answer_eq_next (pmc10_image_ofImage v) _
  · cases h; exact answer_eq_next (pmc13_image_ofImage v) _

/-! ### The bits of an encoding that are matched -/

/-- An encoding is read in bits 40:27 and 12:0 alone. -/
theorem ematch_congr {e f : BitVec 41} (h : ∀ b, b ≤ 12 ∨ 27 ≤ b → bit e b = bit f b) (mt mk : BitVec 27) :
    ematch e mt mk = ematch f mt mk := by
  unfold ematch
  congr 1
  · exact allBits_congr fun b hb _ => by rw [h b (.inr hb)]
  · exact allBits_congr fun b _ hb => by rw [h b (.inl hb)]

/-- With no bit masked, an encoding that matches has the match bits in bits 40:27 and 12:0. -/
theorem bits_of_ematch_unmasked {e : BitVec 41} {mt : BitVec 27} (h : ematch e mt 0 = true) :
    (∀ b, 27 ≤ b → b ≤ 40 → bit e b = bit mt (b - 14)) ∧ (∀ b, b ≤ 12 → bit e b = bit mt b) := by
  obtain ⟨hhigh, hlow⟩ := (ematch_iff e mt 0).mp h
  exact ⟨fun b h1 h2 => (hhigh b h1 h2).resolve_right (by simp), fun b h1 => (hlow b b.zero_le h1).resolve_right (by simp)⟩

theorem ematch_of_opcodeMatch {r : OpMatch} {itype : IType} {e : BitVec 41} (h : opcodeMatch r itype e = true) :
    ematch e r.matchBits r.maskBits = true :=
  ((Bool.and_eq_true _ _).mp h).2

/-- Settles O28: the matcher reads the outer bits alone; unmasked, each match fixes them to the match bits. -/
theorem encodingIsMatchedInItsOuterBitsOnly : Obligations.EncodingIsMatchedInItsOuterBitsOnly := by
  intro itype e f r
  refine ⟨fun h => congrArg (imatch itype r && ·) (ematch_congr h _ _), fun hmask he hf b hb => ?_⟩
  obtain ⟨heHigh, heLow⟩ := bits_of_ematch_unmasked (hmask ▸ ematch_of_opcodeMatch he)
  obtain ⟨hfHigh, hfLow⟩ := bits_of_ematch_unmasked (hmask ▸ ematch_of_opcodeMatch hf)
  obtain hb | hb := hb
  · exact (heLow b hb).trans (hfLow b hb).symm
  · by_cases h40 : b ≤ 40
    · exact (heHigh b hb h40).trans (hfHigh b hb h40).symm
    · rw [BitVec.getLsbD_of_ge e b (by omega), BitVec.getLsbD_of_ge f b (by omega)]

/-! ### The `mov` rows (G1) -/

section Guards

variable {qp : BitVec 6} {r1 : BitVec 7} {s : State}

theorem predicated_eq_noEffect (h : s.core.readPr qp = false) (o : Result) : predicated qp s o = noEffect s :=
  if_neg (Bool.not_eq_true _ ▸ h)

theorem predicated_eq_self (h : s.core.readPr qp = true) (o : Result) : predicated qp s o = o := if_pos h

theorem privileged_eq_fault (h : s.env.psr.cpl ≠ 0) (o : Result) : privileged s o = .fault .privilegedOperation := if_neg h

theorem privileged_eq_self (h : s.env.psr.cpl = 0) (o : Result) : privileged s o = o := if_pos h

theorem targeting_eq_fault (h : r1 = 0) (o : Result) : targeting r1 o = .fault .targetIsRegister0 := if_pos h

theorem targeting_eq_self (h : r1 ≠ 0) (o : Result) : targeting r1 o = o := if_neg h

end Guards

/-- Settles O57: under the predicate and at level 0 nothing but the refusal is left. -/
theorem movToPmdIsRefusedUnlessPredicatedOff : Obligations.MovToPmdIsRefusedUnlessPredicatedOff :=
  fun _ _ _ _ => ⟨fun hp => predicated_eq_noEffect hp _,
    fun hp hl => (predicated_eq_self hp _).trans (privileged_eq_fault hl _),
    fun hp hl => (predicated_eq_self hp _).trans (privileged_eq_self hl _)⟩

/-- The writes of a PMC with a rule, by index (R56 (b)). -/
def pmcWrites (v : Word) : List (Nat × Instr) :=
  [(0, .pmcWr0 v), (1, .pmcWr1 v), (2, .pmcWr2 v), (3, .pmcWr3 v), (8, .pmcWr8 v), (9, .pmcWr9 v), (10, .pmcWr10 v),
   (11, .pmcWr11 v), (13, .pmcWr13 v)]

/-- The reads of a PMC with a rule, by index (R56 (b)). -/
def pmcReads : List (Nat × Instr) :=
  [(0, .pmcRd0), (1, .pmcRd1), (2, .pmcRd2), (3, .pmcRd3), (8, .pmcRd8), (9, .pmcRd9), (10, .pmcRd10), (11, .pmcRd11),
   (13, .pmcRd13)]

/-- The reads of a PMD with a rule, by index (R56 (b)). -/
def pmdReads : List (Nat × Instr) := [(0, .pmdRd0), (1, .pmdRd1), (2, .pmdRd2), (3, .pmdRd3), (17, .pmdRd17)]

section Indexed

variable {s : State} {n : Nat}

theorem writePmcIndexed_eq_exec (v : Word) (s : State) :
    ∀ c ∈ pmcWrites v, writePmcIndexed c.1 v s = exec c.2 s := by
  simp only [pmcWrites, List.forall_mem_cons]
  exact ⟨rfl, rfl, rfl, rfl, rfl, rfl, rfl, rfl, rfl, nofun⟩

theorem readPmcIndexed_eq_exec (s : State) : ∀ c ∈ pmcReads, readPmcIndexed c.1 s = exec c.2 s := by
  simp only [pmcReads, List.forall_mem_cons]
  exact ⟨rfl, rfl, rfl, rfl, rfl, rfl, rfl, rfl, rfl, nofun⟩

theorem readPmdIndexed_eq_exec (s : State) : ∀ c ∈ pmdReads, readPmdIndexed c.1 s = exec c.2 s := by
  simp only [pmdReads, List.forall_mem_cons]
  exact ⟨rfl, rfl, rfl, rfl, rfl, nofun⟩

theorem writePmcIndexed_noRule (h : n ∉ [0, 1, 2, 3, 8, 9, 10, 11, 13]) (v : Word) (s : State) :
    writePmcIndexed n v s = .refused (.noRuleForRegister n) := by
  unfold writePmcIndexed
  split
  case h_10 => rfl
  all_goals exact absurd (by decide) h

theorem readPmcIndexed_noRule (h : n ∉ [0, 1, 2, 3, 8, 9, 10, 11, 13]) (s : State) :
    readPmcIndexed n s = .refused (.noRuleForRegister n) := by
  unfold readPmcIndexed
  split
  case h_10 => rfl
  all_goals exact absurd (by decide) h

theorem readPmdIndexed_noRule (h : n ∉ [0, 1, 2, 3, 17]) (s : State) :
    readPmdIndexed n s = .refused (.noRuleForRegister n) := by
  unfold readPmdIndexed
  split
  case h_6 => rfl
  all_goals exact absurd (by decide) h

/-- A write of PMC[0] completes, whether or not it re-enables collection. -/
theorem completes_pmcWr0 (v : Word) (s : State) : completes (.pmcWr0 v) s := by
  simp only [completes, exec, execPmcWr0]
  split
  · exact ⟨_, rfl⟩
  · exact ⟨_, rfl⟩

theorem completes_pmcWrites (v : Word) (s : State) : ∀ c ∈ pmcWrites v, completes c.2 s := by
  simp only [pmcWrites, List.forall_mem_cons]
  exact ⟨completes_pmcWr0 v s, ⟨_, rfl⟩, ⟨_, rfl⟩, ⟨_, rfl⟩, ⟨_, rfl⟩, ⟨_, rfl⟩, ⟨_, rfl⟩, ⟨_, rfl⟩, ⟨_, rfl⟩, nofun⟩

theorem completes_pmcReads (s : State) : ∀ c ∈ pmcReads, completes c.2 s := by
  simp only [pmcReads, List.forall_mem_cons]
  exact ⟨⟨_, rfl⟩, ⟨_, rfl⟩, ⟨_, rfl⟩, ⟨_, rfl⟩, ⟨_, rfl⟩, ⟨_, rfl⟩, ⟨_, rfl⟩, ⟨_, rfl⟩, ⟨_, rfl⟩, nofun⟩

/-- A read of PMD[0] or PMD[1] is refused only while frozen in TLB mode (R108). -/
theorem readInstructionEar_completes (h : s.regs.pmc0.fr = false ∨ s.regs.pmc10.tlb = false) (frozen : Word) :
    ∃ t, readInstructionEar frozen s = .next t := by
  unfold readInstructionEar
  split_ifs with hfr htlb
  · exact ⟨_, rfl⟩
  · exact absurd h (by simpa [htlb] using hfr)
  · exact ⟨_, rfl⟩

/-- A read of the data EAR is refused only while frozen (R110). -/
theorem readDataEar_completes (h : s.regs.pmc0.fr = false) : ∃ t, readDataEar s = .next t :=
  ⟨_, if_pos (by rw [h]; rfl)⟩

theorem completes_pmdReads : ∀ c ∈ pmdReads,
    s.regs.pmc0.fr = false ∨ (c.1 ≤ 1 ∧ s.regs.pmc10.tlb = false) → completes c.2 s := by
  have hdata {k : Nat} (hk : ¬ k ≤ 1) (h : s.regs.pmc0.fr = false ∨ (k ≤ 1 ∧ s.regs.pmc10.tlb = false)) :
      ∃ t, readDataEar s = .next t :=
    readDataEar_completes (h.resolve_right fun hkt => hk hkt.1)
  simp only [pmdReads, List.forall_mem_cons]
  exact ⟨fun h => readInstructionEar_completes (h.imp_right And.right) _,
    fun h => readInstructionEar_completes (h.imp_right And.right) _,
    hdata (by decide), hdata (by decide), hdata (by decide), nofun⟩

end Indexed

/-- Settles O56: under the predicate and at level 0 the row is the indexed write. -/
theorem movToPmcPerformsTheIndexedWrite : Obligations.MovToPmcPerformsTheIndexedWrite := by
  refine fun r3 r2 qp s => ⟨fun hp => predicated_eq_noEffect hp _,
    fun hp hl => (predicated_eq_self hp _).trans (privileged_eq_fault hl _), fun hp hl => ?_⟩
  have hmov : exec (.movToPmc r3 r2 qp) s = writePmcIndexed (s.core.readGr r3).toNat (s.core.readGr r2) s :=
    (predicated_eq_self hp _).trans (privileged_eq_self hl _)
  refine ⟨fun c hc hidx => ?_, fun hidx => hmov.trans (writePmcIndexed_noRule hidx _ _)⟩
  have hwrite : exec (.movToPmc r3 r2 qp) s = exec c.2 s := by
    rw [hmov, hidx]
    exact writePmcIndexed_eq_exec _ s c hc
  obtain ⟨t, ht⟩ := completes_pmcWrites _ s c hc
  exact ⟨hwrite, t, hwrite.trans ht⟩

/-- From `s` to `u` the general register `r1` took `v`; the unit, the inputs and every other core register are as before. -/
def State.tookInto (s u : State) (r1 : BitVec 7) (v : Word) : Prop :=
  u.regs = s.regs ∧ s.keepsInputs u ∧ u.core.pr = s.core.pr ∧ u.core.readGr r1 = v ∧
  ∀ r : BitVec 7, r ≠ r1 → u.core.readGr r = s.core.readGr r

/-- What a read that completes returns is what `writeBack` puts into the target, and it changes nothing else. -/
theorem writeBack_tookInto {r1 : BitVec 7} {s : State} {o : Result} (h0 : r1 ≠ 0)
    (hread : ∀ t, o = .next t → ReadsOnly s t) (hcomp : ∃ t, o = .next t) :
    ∃ (t u : State) (v : Word), o = .next t ∧ t.obs.result = some v ∧ writeBack r1 o = .next u ∧ s.tookInto u r1 v := by
  obtain ⟨t, rfl⟩ := hcomp
  obtain ⟨n, ob, v, -, hv, rfl⟩ := hread t rfl
  refine ⟨_, { s with draws := s.draws + n, obs := ob, core := s.core.writeGr r1 v }, v, rfl, hv, ?_, rfl, ⟨rfl, rfl, rfl⟩,
    writeGr_pr _ _ _, readGr_writeGr_same _ h0 v, fun r hr => readGr_writeGr_other _ hr v⟩
  simp only [writeBack, hv]

/-- Settles O58: the guards leave the indexed read, which completes, and its result goes into the target. -/
theorem movFromPmcTakesTheIndexedRead : Obligations.MovFromPmcTakesTheIndexedRead := by
  refine fun r1 r3 qp s => ⟨fun hp => predicated_eq_noEffect hp _,
    fun hp h0 => (predicated_eq_self hp _).trans (targeting_eq_fault h0 _),
    fun hp h0 hl => (predicated_eq_self hp _).trans ((targeting_eq_self h0 _).trans (privileged_eq_fault hl _)),
    fun hp h0 hl => ?_⟩
  have hmov : exec (.movFromPmc r1 r3 qp) s = writeBack r1 (readPmcIndexed (s.core.readGr r3).toNat s) :=
    (predicated_eq_self hp _).trans ((targeting_eq_self h0 _).trans (privileged_eq_self hl _))
  refine ⟨fun c hc hidx => ?_, fun hidx => by rw [hmov, readPmcIndexed_noRule hidx]; rfl⟩
  have hexec := readPmcIndexed_eq_exec s c hc
  rw [hmov, hidx, hexec]
  exact writeBack_tookInto h0 (fun _ ht => readPmcIndexed_readsOnly (hexec.trans ht)) (completes_pmcReads s c hc)

theorem pmdReadAllowed_iff (s : State) :
    pmdReadAllowed s = true ↔
      s.env.psr.cpl = 0 ∨ Config.pmdReadAllowed s.env.psr.cpl s.env.psr.sp s.draws = true := by
  simp [pmdReadAllowed]

/-- Settles O59: as for `mov r1 = pmc[r3]`, but the read may stop, and where it is not allowed a draw takes its place. -/
theorem movFromPmdTakesTheIndexedRead : Obligations.MovFromPmdTakesTheIndexedRead := by
  intro r1 r3 qp s
  have hmov (hp : s.core.readPr qp = true) (h0 : r1 ≠ 0) : exec (.movFromPmd r1 r3 qp) s = writeBack r1
      (if pmdReadAllowed s then readPmdIndexed (s.core.readGr r3).toNat s else answerDrawn s.drawn s) :=
    (predicated_eq_self hp _).trans (targeting_eq_self h0 _)
  refine ⟨fun hp => predicated_eq_noEffect hp _, fun hp h0 => (predicated_eq_self hp _).trans (targeting_eq_fault h0 _),
    fun hp h0 hallowed => ?_, fun hp h0 hl hfree => ?_⟩
  · rw [hmov hp h0, if_pos ((pmdReadAllowed_iff s).mpr hallowed)]
    refine ⟨fun c hc hidx => ?_, fun hidx => by rw [readPmdIndexed_noRule hidx]; rfl⟩
    have hexec := readPmdIndexed_eq_exec s c hc
    rw [hidx, hexec]
    exact ⟨fun f hf => by rw [hf]; rfl, fun hcond =>
      writeBack_tookInto h0 (fun _ ht => readPmdIndexed_readsOnly (hexec.trans ht)) (completes_pmdReads c hc hcond)⟩
  · have hnot : ¬ pmdReadAllowed s = true := by simpa [pmdReadAllowed_iff, hfree] using hl
    rw [hmov hp h0, if_neg hnot]
    exact ⟨_, rfl, rfl, readGr_writeGr_same _ h0 _, fun r hr => readGr_writeGr_other _ hr _⟩

end Sys2Proof.Machine

/-! Proofs about the overflow status (40_overflow_status.md): what a read and a write of PMC[0] do, how an overflow sets
its bits and freezes the unit, and what ends a freeze. -/

namespace Sys2Proof.Machine

/-! ### The fields of PMC[0] -/

/-- The image of PMC[0] loses no field, so a read reports both (R60). -/
theorem pmc0_ofImage_image (p : Pmc0) : Pmc0.ofImage p.image = p := by
  have hfr : bit p.image 0 = p.fr := by rw [bit, pmc0_image_bit, if_pos rfl]
  have hoverflow : field p.image 4 4 = p.overflow := by
    apply BitVec.eq_of_getLsbD_eq
    intro k hk
    rw [field, BitVec.getLsbD_extractLsb', pmc0_image_bit, if_neg (by omega), if_pos (by omega), Nat.add_sub_cancel_left,
      decide_eq_true hk, Bool.true_and]
  exact congrArg₂ Pmc0.mk hfr hoverflow

/-- No field of PMC[0] stands outside the mask 0xF1 (R60). -/
theorem pmc0_image_toNat_le (p : Pmc0) : p.image.toNat ≤ 0xF1 := by
  have hmask : p.image = p.image &&& 0xF1 := by rw [← pmc0_image_ofImage, pmc0_ofImage_image]
  rw [hmask, BitVec.toNat_and]
  exact Nat.and_le_right

/-- The image of PMC[0] is zero between the freeze bit and the overflow bits, and above them. -/
theorem pmc0_image_bit_eq_false (p : Pmc0) {b : Nat} (h : 1 ≤ b ∧ b < 4 ∨ 8 ≤ b) : p.image.getLsbD b = false := by
  rw [pmc0_image_bit, if_neg (by omega), if_neg (by omega)]

/-- Re-enabling collection touches the capture state alone (R107). -/
@[simp] theorem restartCollection_pmc0 (r : Regs) (drawn : Word) : (r.restartCollection drawn).pmc0 = r.pmc0 := by
  obtain h | h := restartCollection_eq_self_or_cleared r drawn
  · rw [h]
  · rw [h]

theorem restartCollection_of_clear (h : Config.iearClearOnEnable = .clear) (r : Regs) (drawn : Word) :
    r.restartCollection drawn = { r with iearCaptured := false, pmd0 := { r.pmd0 with v := false } } :=
  if_pos (by rw [clearsCapture, h])

theorem restartCollection_of_keep (h : Config.iearClearOnEnable = .keep) (r : Regs) (drawn : Word) :
    r.restartCollection drawn = r :=
  if_neg (by rw [clearsCapture, h]; exact Bool.false_ne_true)

/-- A write re-enables collection where it takes fr from 1 to 0 (R61). -/
theorem reEnables_ofImage_iff (p : Pmc0) (v : Word) :
    reEnables p (Pmc0.ofImage v) = true ↔ p.fr = true ∧ v.getLsbD 0 = false := by
  simp [reEnables, Pmc0.ofImage]

section Overflow

variable {p : Pmc0} {S oi : BitVec 4}

theorem afterOverflow_overflow_bit (k : Nat) :
    (p.afterOverflow S oi).overflow.getLsbD k = (p.overflow.getLsbD k || S.getLsbD k) :=
  BitVec.getLsbD_or

/-- While monitoring is enabled, an overflow freezes exactly where a member interrupts (R64). -/
theorem afterOverflow_fr_of_not_frozen (h : p.fr = false) : (p.afterOverflow S oi).fr = someInterrupting S oi := by
  simp only [Pmc0.afterOverflow, h, Bool.false_or]

end Overflow

/-! ### What an operation can do to PMC[0] -/

/-- Software writes `v` to PMC[0]: by `PMC.WR 0`, or by the `mov` whose index register holds 0 (G1). -/
def WritesPmc0 (i : Instr) (s : State) (v : Word) : Prop :=
  i = .pmcWr0 v ∨ ∃ r3 r2 qp, i = .movToPmc r3 r2 qp ∧ s.core.readGr r3 = 0 ∧ s.core.readGr r2 = v

/-- Some bits of PMC[0] may be set from `p` to `q`, and none is cleared. -/
def Pmc0.onlySets (p q : Pmc0) : Prop :=
  (p.fr = true → q.fr = true) ∧ ∀ k, p.overflow.getLsbD k = true → q.overflow.getLsbD k = true

theorem onlySets_refl (p : Pmc0) : p.onlySets p := ⟨id, fun _ => id⟩

theorem onlySets_afterOverflow (p : Pmc0) (S oi : BitVec 4) : p.onlySets (p.afterOverflow S oi) := by
  refine ⟨fun h => ?_, fun k h => ?_⟩
  · simp only [Pmc0.afterOverflow, h, Bool.true_or]
  · rw [afterOverflow_overflow_bit, h, Bool.true_or]

theorem agent_of_isTagEvent {i : Instr} (h : i.isTagEvent = true) : i.agent = .hardware := by
  cases i with
  | evFetch | evFetch32 | evMemref | evRseVhpt => rfl
  | _ => cases h

section Effects

variable {i : Instr} {s t : State}

theorem WritesPmc0.agent_eq_software {v : Word} (h : WritesPmc0 i s v) : i.agent = .software := by
  obtain rfl | ⟨r3, r2, qp, rfl, -, -⟩ := h
  · rfl
  · rfl

theorem WritesPmc0.isRead_eq_false {v : Word} (h : WritesPmc0 i s v) : i.isRead = false := by
  obtain rfl | ⟨r3, r2, qp, rfl, -, -⟩ := h
  · rfl
  · rfl

/-- What software does that is no read is neither a read nor, being software's, a tag event. -/
theorem not_read_or_tagEvent_of_software (hsoft : i.agent = .software) (hread : i.isRead = false) :
    ¬ (i.isRead = true ∨ i.isTagEvent = true) := by
  rintro (hr | htag)
  · rw [hread] at hr; cases hr
  · rw [agent_of_isTagEvent htag] at hsoft; cases hsoft

/-- Every effect that writes a register comes of a software write, an overflow or a capture. -/
theorem Effect.regs_eq_of_read_or_tagEvent (h : Effect i s t) (hi : i.isRead = true ∨ i.isTagEvent = true) :
    t.regs = s.regs := by
  cases h with
  | shown | taken => rfl
  | configured _ hsoft hread => exact absurd hi (not_read_or_tagEvent_of_software hsoft hread)
  | pmc0Written _ hw | restarted _ hw =>
    exact absurd hi (not_read_or_tagEvent_of_software (WritesPmc0.agent_eq_software hw) (WritesPmc0.isRead_eq_false hw))
  | overflowed S hev => subst hev; exact hi.elim nofun nofun
  | captured line lat hev => subst hev; exact hi.elim nofun nofun

/-- Hardware writes PMC[0] by an overflow alone, and that only sets bits (R66). -/
theorem Effect.onlySets_of_hardware (h : Effect i s t) (hw : i.agent = .hardware) :
    s.regs.pmc0.onlySets t.regs.pmc0 := by
  have hnot : i.agent ≠ .software := by rw [hw]; nofun
  cases h with
  | shown | taken | captured => exact onlySets_refl _
  | overflowed S => exact onlySets_afterOverflow _ S _
  | configured _ hsoft => exact absurd hsoft hnot
  | pmc0Written _ hwr | restarted _ hwr => exact absurd (WritesPmc0.agent_eq_software hwr) hnot

/-- The interrupt is requested by an overflow alone, as it freezes (R64, R121). -/
theorem Effect.freezes_of_pmiRequest (h : Effect i s t) (hreq : t.obs.pmiRequest = true) :
    s.regs.pmc0.fr = false ∧ t.regs.pmc0.fr = true := by
  cases h with
  | overflowed S _ _ hfr => exact ⟨hfr, (afterOverflow_fr_of_not_frozen hfr).trans hreq⟩
  | shown _ _ hpmi | taken _ _ _ _ hpmi => cases hpmi.symm.trans hreq
  | configured | pmc0Written | restarted | captured => cases hreq

/-- Only a write of PMC[0] clears fr, and only a value with bit 0 clear (R66). -/
theorem Effect.writesPmc0_of_freeze_ends (h : Effect i s t) (hs : s.regs.pmc0.fr = true)
    (ht : t.regs.pmc0.fr = false) : ∃ v, WritesPmc0 i s v ∧ v.getLsbD 0 = false := by
  cases h with
  | pmc0Written v hw => exact ⟨v, hw, ht⟩
  | restarted v hw hyes => exact ⟨v, hw, ((reEnables_ofImage_iff _ v).mp hyes).2⟩
  | configured r _ _ h0 => cases hs.symm.trans ((congrArg Pmc0.fr h0).symm.trans ht)
  | overflowed _ _ _ hfr => cases hs.symm.trans hfr
  | shown | taken | captured => cases hs.symm.trans ht

end Effects

/-! ### What the operations of this part answer -/

section Answers

variable {s : State} {v : Word} {S : BitVec 4}

theorem execPmcWr0_of_reEnables (h : reEnables s.regs.pmc0 (Pmc0.ofImage v) = true) : execPmcWr0 v s =
    store ({ s.regs with pmc0 := Pmc0.ofImage v }.restartCollection s.drawn) s.afterDraw :=
  if_pos h

theorem execPmcWr0_of_not_reEnables (h : ¬ reEnables s.regs.pmc0 (Pmc0.ofImage v) = true) :
    execPmcWr0 v s = store { s.regs with pmc0 := Pmc0.ofImage v } s :=
  if_neg h

theorem execEvOvf_zero (s : State) : execEvOvf 0 s = .refused .emptyOverflowSet := if_pos rfl

theorem execEvOvf_of_frozen (hS : S ≠ 0) (hfr : s.regs.pmc0.fr = true) : execEvOvf S s = notEnabled s :=
  (if_neg hS).trans (if_pos hfr)

theorem execEvOvf_of_not_frozen (hS : S ≠ 0) (hfr : s.regs.pmc0.fr = false) :
    execEvOvf S s = overflowCounters S s :=
  (if_neg hS).trans (if_neg (by rw [hfr]; exact Bool.false_ne_true))

/-- A frozen unit captures no miss, whatever the registers say besides (R65). -/
theorem execEvIearCapture_of_frozen (hfr : s.regs.pmc0.fr = true) (line : BitVec 59) (lat : Nat) :
    execEvIearCapture line lat s = notEnabled s :=
  if_neg (by simp [captureEnabled, hfr])

end Answers

/-! ### The obligations -/

/-- Settles O15: the idle step keeps fr, and of the effects of an operation only a software write of PMC[0] clears it;
the `mov` reads its registers as they stand before the step. -/
theorem onlyASoftwareWriteEndsAFreeze : Obligations.OnlyASoftwareWriteEndsAFreeze := by
  intro s t h hs ht
  obtain ⟨-, rfl⟩ | ⟨r, rest, i, u, hin, hdec, hexec, rfl⟩ := step_next h
  · cases hs.symm.trans ht
  · refine ⟨r, rest, i, hin, hdec, ?_⟩
    obtain ⟨v, hwrite, hv⟩ := (exec_effect hexec).writesPmc0_of_freeze_ends hs ht
    obtain hwr | ⟨r3, r2, qp, hmov, hr3, rfl⟩ := hwrite
    · exact .inl ⟨v, hwr, hv⟩
    · exact .inr ⟨r3, r2, qp, hmov, hr3, hv⟩

/-- Settles O14, by the cases of what an operation can do. -/
theorem hardwareOnlySetsBitsOfPmc0 : Obligations.HardwareOnlySetsBitsOfPmc0 := by
  intro i s t hw h
  have heffect := exec_effect h
  obtain ⟨hfr, hoverflow⟩ := heffect.onlySets_of_hardware hw
  exact ⟨hfr, hoverflow, heffect.freezes_of_pmiRequest⟩

/-- Settles O50, by the cases of what an operation can do. -/
theorem readsAndTagEventsChangeNoRegister : Obligations.ReadsAndTagEventsChangeNoRegister :=
  fun _ _ _ hi h => (exec_effect h).regs_eq_of_read_or_tagEvent hi

/-- Settles O9: the fields are read back from the image, which is zero outside them. -/
theorem readOfPmc0ReturnsFreezeAndOverflow : Obligations.ReadOfPmc0ReturnsFreezeAndOverflow := by
  intro s
  have hfields := pmc0_ofImage_image s.regs.pmc0
  have hzero {lo len : Nat} (hrange : ∀ k < len, 1 ≤ lo + k ∧ lo + k < 4 ∨ 8 ≤ lo + k) :
      s.regs.pmc0.image.extractLsb' lo len = 0 := by
    apply BitVec.eq_of_getLsbD_eq
    intro k hk
    rw [BitVec.getLsbD_extractLsb', pmc0_image_bit_eq_false _ (hrange k hk), Bool.and_false, BitVec.ofNat_eq_ofNat,
      BitVec.getLsbD_zero]
  exact ⟨s.regs.pmc0.image, rfl, congrArg Pmc0.fr hfields, hzero (by omega), congrArg Pmc0.overflow hfields,
    hzero (by omega), pmc0_image_toNat_le _⟩

/-- Settles O10: the write stores its fields, and where it re-enables collection the parameter alone decides what becomes
of the capture state. -/
theorem writeOfPmc0StoresFreezeAndOverflow : Obligations.WriteOfPmc0StoresFreezeAndOverflow := by
  intro v s
  by_cases hre : reEnables s.regs.pmc0 (Pmc0.ofImage v) = true
  · have hcond := (reEnables_ofImage_iff _ v).mp hre
    refine ⟨_, execPmcWr0_of_reEnables hre, ⟨⟨rfl, rfl, rfl⟩, rfl⟩, rfl, ?_⟩
    simp only [show_regs, setRegs_regs, restartCollection_pmc0]
    exact ⟨rfl, rfl, fun hnot => absurd hcond hnot, fun _ =>
      ⟨restartCollection_eq_self_or_cleared _ _, fun hclear => restartCollection_of_clear hclear _ _,
        fun hkeep => restartCollection_of_keep hkeep _ _⟩⟩
  · exact ⟨_, execPmcWr0_of_not_reEnables hre, ⟨⟨rfl, rfl, rfl⟩, rfl⟩, rfl, rfl, rfl, fun _ => rfl,
      fun hcond => absurd ((reEnables_ofImage_iff _ v).mpr hcond) hre⟩

/-- Settles O12: an overflow while not frozen is `overflowCounters`, and its request is the fr it sets. -/
theorem overflowSetsItsBitsAndFreezes : Obligations.OverflowSetsItsBitsAndFreezes := by
  intro S s hS hfr
  have hfreeze : (s.regs.pmc0.afterOverflow S s.env.oi).fr = someInterrupting S s.env.oi :=
    afterOverflow_fr_of_not_frozen hfr
  refine ⟨_, execEvOvf_of_not_frozen hS hfr, ⟨⟨rfl, rfl, rfl⟩, rfl⟩, rfl, rfl,
    fun k _ => afterOverflow_overflow_bit k, ?_, ?_⟩
  · simp only [show_regs, setRegs_regs, hfreeze]
    exact someInterrupting_iff S s.env.oi
  · simp only [show_obs, show_regs, setRegs_regs, hfreeze]

/-- Settles O13: while frozen neither event is enabled, and the empty set is refused before fr is looked at. -/
theorem frozenUnitTakesNoOverflowAndNoCapture : Obligations.FrozenUnitTakesNoOverflowAndNoCapture :=
  fun _ line lat s => ⟨fun hS hfr => execEvOvf_of_frozen hS hfr,
    fun hfr => execEvIearCapture_of_frozen hfr line lat, execEvOvf_zero s⟩

end Sys2Proof.Machine

/-! Proofs about the instruction address range check (41_instruction_range_check.md): PMC[13], the match of an IBR pair,
the tag made of the four matches and the switches, and the fetch that follows a write of `ta`. -/

namespace Sys2Proof.Machine

/-! ### PMC[13] -/

/-- Settles O17: of the image of PMC[13] only bit 0 can be set, and it is `ta`. -/
theorem readOfPmc13ReturnsTagAll : Obligations.ReadOfPmc13ReturnsTagAll := by
  intro s
  refine ⟨pmc13Image s.regs.ta, rfl, (pmc13_image_bit _ 0).trans (if_pos rfl), ?_⟩
  apply BitVec.eq_of_getLsbD_eq
  intro k hk
  have habove : 1 + k ≠ 0 := by omega
  rw [BitVec.getLsbD_extractLsb', pmc13_image_bit, if_neg habove, Bool.and_false, BitVec.ofNat_eq_ofNat,
    BitVec.getLsbD_zero]

/-- Settles O18: the write is a store of the registers with bit 0 as their `ta`. -/
theorem writeOfPmc13StoresTagAll : Obligations.WriteOfPmc13StoresTagAll := fun _ _ => rfl

/-! ### The match of an IBR pair and the tag -/

/-- An IBR pair matches where its privilege-level mask holds the current level and its address part matches (R72). -/
theorem ibrMatch_iff (p : IbrPair) (c : BitVec 2) (ip : Word) :
    ibrMatch p c ip = true ↔ bit p.plm c.toNat = true ∧ addrMatch p.addr p.mask ip = true :=
  Bool.and_eq_true_iff

/-- Settles O19: the privilege level and the four bit ranges of the address part; no definition reads the x-bit. -/
theorem ibrMatchIsTheFormulaOfItsPair : Obligations.IbrMatchIsTheFormulaOfItsPair := by
  refine fun p c ip => ⟨?_, fun _ => rfl⟩
  rw [ibrMatch_iff, addrMatch_iff]
  simp only [Nat.zero_le, forall_const]

section Range

variable (e : Env)

theorem ibrAnyMatch_iff :
    ibrAnyMatch e = true ↔ ∃ k : Fin 4, ibrMatch e.ibr[k] e.psr.cpl e.ip = true := by
  simp [ibrAnyMatch, Fin.exists_fin_succ, or_assoc]

/-- The IBRs serve as breakpoints where PSR.db or some x-bit is set (R75). -/
theorem ibrInUseAsBreakpoints_iff :
    ibrInUseAsBreakpoints e = true ↔ e.psr.db = true ∨ ∃ k : Fin 4, e.ibr[k].x = true := by
  simp [ibrInUseAsBreakpoints, Fin.exists_fin_succ, or_assoc]

theorem ibrInUseAsBreakpoints_eq_false_iff :
    ibrInUseAsBreakpoints e = false ↔ e.psr.db = false ∧ ∀ k : Fin 4, e.ibr[k].x = false := by
  rw [← Bool.not_eq_true, ibrInUseAsBreakpoints_iff]
  simp only [not_or, not_exists, Bool.not_eq_true]

/-- The formula of R73, in its logical form. -/
theorem ibrRangeTag_iff (ta : Bool) :
    ibrRangeTag ta e = true ↔
      ta = true ∨ (e.psr.is = false ∧ (∃ k : Fin 4, ibrMatch e.ibr[k] e.psr.cpl e.ip = true) ∧
        e.psr.db = false ∧ ∀ k : Fin 4, e.ibr[k].x = false) := by
  rw [← ibrAnyMatch_iff, ← ibrInUseAsBreakpoints_eq_false_iff]
  simp only [ibrRangeTag, Bool.or_eq_true, Bool.and_eq_true, Bool.not_eq_true']

/-- A fetch shows the formula of R73 for the value of `ta` that is seen. -/
theorem fetchOutputs_ibrRangeTag_iff (g : TagRegs) (itype : IType) (enco : BitVec 41) :
    (fetchOutputs g e itype enco).ibrRangeTag = some true ↔
      g.ta = true ∨ (e.psr.is = false ∧ (∃ k : Fin 4, ibrMatch e.ibr[k] e.psr.cpl e.ip = true) ∧
        e.psr.db = false ∧ ∀ k : Fin 4, e.ibr[k].x = false) :=
  Option.some_inj.trans (ibrRangeTag_iff e g.ta)

end Range

/-- With `ta` = 0 and the IBRs in use as breakpoints nothing is tagged (R73, R75). -/
theorem ibrRangeTag_of_inUse {e : Env} (h : ibrInUseAsBreakpoints e = true) : ibrRangeTag false e = false := by
  simp only [ibrRangeTag, h, Bool.not_true, Bool.and_false, Bool.or_false]

/-- An opcode match outside the address range gives no tag (R85). -/
theorem opcodeTag_of_not_range (isMatch psrIs : Bool) : opcodeTag isMatch false psrIs = false := by
  simp only [opcodeTag, Bool.and_false, Bool.false_and]

/-- Settles O21: the fetch shows `ibrRangeTag`, which is the formula, and shows it always. -/
theorem rangeTagCombinesMatchesAndSwitches : Obligations.RangeTagCombinesMatchesAndSwitches := by
  refine fun itype enco s => ⟨_, rfl, ?_, ?_⟩
  · exact fetchOutputs_ibrRangeTag_iff s.env s.seen itype enco
  · exact (Bool.eq_false_or_eq_true (ibrRangeTag s.seen.ta s.env)).symm.imp (congrArg some) (congrArg some)

/-- Settles O22: where `ta` is seen as it stands, it alone tags an IA-32 fetch, and an IA-64 fetch is tagged by the
formula of R73. -/
theorem rangeTagByInstructionSet : Obligations.RangeTagByInstructionSet := by
  intro itype enco s hpresent
  have hseen : s.seen.ta = s.regs.ta :=
    congrArg TagRegs.ta (referenceSemanticsSeesThePresentRegisters s (.inl hpresent))
  have htag := fetchOutputs_ibrRangeTag_iff s.env s.seen itype enco
  refine ⟨_, _, rfl, rfl, fun hta => ?_, fun hta => ?_, fun _ his hdb hx hmatch => ?_⟩
  · exact ⟨htag.mpr (.inl (hseen.trans hta)), congrArg some (hseen.trans hta)⟩
  · refine ⟨congrArg some (hseen.trans hta), fun hshown => ?_⟩
    obtain hone | ⟨-, hmatch, -⟩ := htag.mp hshown
    · cases hone.symm.trans (hseen.trans hta)
    · exact hmatch
  · exact htag.mpr (.inr ⟨his, hmatch, hdb, hx⟩)

/-- Settles O23: the range tag of the IA-64 fetch is 0, so both opcode tags are; the IA-32 fetch shows the seen `ta` and
never an opcode tag. -/
theorem breakpointUseSwitchesTheRangeOff : Obligations.BreakpointUseSwitchesTheRangeOff := by
  intro itype enco s hta huse
  have hrange : ibrRangeTag s.seen.ta s.env = false := by
    rw [hta]; exact ibrRangeTag_of_inUse ((ibrInUseAsBreakpoints_iff s.env).mpr huse)
  have htag (r : OpMatch) :
      opcodeTag (opcodeMatch r itype enco) (ibrRangeTag s.seen.ta s.env) s.env.psr.is = false := by
    rw [hrange]; exact opcodeTag_of_not_range _ _
  exact ⟨_, _, rfl, congrArg some hrange, congrArg some (htag s.seen.pmc8), congrArg some (htag s.seen.pmc9), rfl,
    congrArg some hta, rfl, rfl⟩

/-! ### A write of `ta` and the fetch after it -/

/-- R135 for `ta`: it is seen as it stands, or as one of the last SYNC_DELAY steps found it. -/
theorem seen_ta_mem (s : State) :
    s.seen.ta = s.regs.ta ∨ s.seen.ta ∈ (s.past.take Config.syncDelay).map (·.ta) := by
  rw [List.map_take]
  exact seenAt_mem _ _ _

/-- A run goes on from the state its first step leads to. -/
theorem run_succ_of_step {M : Host.Core} {s t : M.State} (h : M.step s = .next t) (k : Nat) :
    M.run (k + 1) s = M.run k t := by
  simp only [Host.Core.run, h]

theorem run_two_of_steps {s t u : State} (hfirst : step s = .next t) (hsecond : step t = .next u) :
    Host.Core.run core 2 s = .next u :=
  (run_succ_of_step (M := core) hfirst 1).trans (run_succ_of_step (M := core) hsecond 0)

section Steps

variable {s : State} {r : Request} {rest : List Request} (hin : s.inbox = r :: rest)
include hin

/-- A step that takes a `PMC.WR 13` (R71): bit 0 is stored, and what was there before is remembered. -/
theorem step_pmcWr13 {v : Word} (hdec : decode r.image = .ok (.pmcWr13 v)) :
    step s = .next { s.accept r rest with
      regs := { s.regs with ta := bit v 0 }, past := s.tagRegs :: s.past, obs := Obs.silent } :=
  step_eq_remember_exec hin hdec

/-- A step that takes an `EV.FETCH` (R86) shows its outputs for what is seen with the inputs of the step. -/
theorem step_evFetch {itype : IType} {enco : BitVec 41} (hdec : decode r.image = .ok (.evFetch itype enco)) :
    step s = .next { s.accept r rest with
      past := s.tagRegs :: s.past, obs := fetchOutputs (s.accept r rest).seen r.env itype enco } :=
  step_eq_remember_exec hin hdec

end Steps

/-- Settles O34: the fetch sees `ta` in the state after the write, whose present value is the new one and whose record
begins with the registers before the write. -/
theorem fetchAfterWriteSeesTheNewTagAll : Obligations.FetchAfterWriteSeesTheNewTagAll := by
  intro s w f rest v itype enco hin hwrite hfetch
  have hfirst := step_pmcWr13 hin hwrite
  have hrun := run_two_of_steps hfirst (step_evFetch rfl hfetch)
  exact ⟨_, _, hrun, rfl, rfl, seen_ta_mem _, fun h => seenAt_eq_now h _ _⟩

end Sys2Proof.Machine

/-! Proofs about the opcode match (42_opcode_match.md): the fields of PMC[8] and PMC[9], the match of a type and of an
encoding, the recipe that matches every instruction, and the outputs of the two fetches. -/

namespace Sys2Proof.Machine

/-! ### The fields of PMC[8] and PMC[9] -/

/-- Bit k of a field is bit lo + k of the word (00_scope.md section 6.1). -/
theorem getLsbD_field {w len k : Nat} (v : BitVec w) (lo : Nat) (hk : k < len) :
    (v.extractLsb' lo len).getLsbD k = v.getLsbD (lo + k) := by
  rw [BitVec.getLsbD_extractLsb', decide_eq_true hk, Bool.true_and]

section Image

variable (p : OpMatch)

theorem opMatch_image_maskBits : p.image.extractLsb' 3 27 = p.maskBits := by
  apply BitVec.eq_of_getLsbD_eq
  intro k hk
  rw [getLsbD_field _ _ hk, opMatch_image_bit, if_neg (by omega), if_pos (by omega), Nat.add_sub_cancel_left]

theorem opMatch_image_matchBits : p.image.extractLsb' 33 27 = p.matchBits := by
  apply BitVec.eq_of_getLsbD_eq
  intro k hk
  rw [getLsbD_field _ _ hk, opMatch_image_bit, if_neg (by omega), if_neg (by omega), if_neg (by omega),
    if_pos (by omega), Nat.add_sub_cancel_left]

/-- The image of an opcode match register is zero below the mask and between the mask and the match bits (D3). -/
theorem opMatch_image_bit_eq_false {b : Nat} (h : b < 3 ∨ 30 ≤ b ∧ b < 33) : p.image.getLsbD b = false := by
  rw [opMatch_image_bit]
  obtain hlow | ⟨h30, h33⟩ := h
  · exact if_pos hlow
  · rw [if_neg (by omega), if_neg (by omega), if_pos h33]

end Image

/-- Settles O24: both reads answer the image of their register, whose fields stand at their places and which is zero in
the ignored fields. -/
theorem readOfAnOpcodeMatchRegisterReturnsItsFields : Obligations.ReadOfAnOpcodeMatchRegisterReturnsItsFields := by
  intro s c hc
  have hread : exec c.1 s = answer c.2.image s := by
    simp only [List.mem_cons, List.not_mem_nil, or_false] at hc
    obtain rfl | rfl := hc
    · rfl
    · rfl
  have hzero {lo : Nat} (hrange : ∀ k < 3, lo + k < 3 ∨ 30 ≤ lo + k ∧ lo + k < 33) :
      c.2.image.extractLsb' lo 3 = 0 := by
    apply BitVec.eq_of_getLsbD_eq
    intro k hk
    rw [BitVec.getLsbD_extractLsb', opMatch_image_bit_eq_false _ (hrange k hk), Bool.and_false, BitVec.ofNat_eq_ofNat,
      BitVec.getLsbD_zero]
  exact ⟨c.2.image, hread, hzero (by omega), opMatch_image_maskBits _, hzero (by omega), opMatch_image_matchBits _,
    opMatch_image_bit _ 60, opMatch_image_bit _ 61, opMatch_image_bit _ 62, opMatch_image_bit _ 63⟩

/-- Settles O25: each write is a store of the registers with `OpMatch.ofImage v` in its own register. -/
theorem writeOfAnOpcodeMatchRegisterStoresItsFields : Obligations.WriteOfAnOpcodeMatchRegisterStoresItsFields :=
  fun v _ => ⟨OpMatch.ofImage v, rfl, rfl, rfl, rfl, rfl, rfl, rfl, rfl⟩

/-! ### The match of a type and of an encoding -/

/-- Settles O26: for each type the disjunct of that type is what is left, and it is the bit `imatch` reads. -/
theorem typeMatchReadsTheBitOfTheType : Obligations.TypeMatchReadsTheBitOfTheType := by
  intro itype r
  cases itype with
  | M => simp [imatch]
  | I => simp [imatch]
  | F => simp [imatch]
  | B => simp [imatch]

/-- R83 in the bits of the register image: match bit k stands at bit 33 + k of it, mask bit k at bit 3 + k. -/
theorem ematch_ofImage_iff (enco : BitVec 41) (v : Word) :
    ematch enco (OpMatch.ofImage v).matchBits (OpMatch.ofImage v).maskBits = true ↔
      (∀ b, 27 ≤ b → b ≤ 40 → bit enco b = bit v (b + 19) ∨ bit v (b - 11) = true) ∧
      (∀ b ≤ 12, bit enco b = bit v (b + 33) ∨ bit v (b + 3) = true) := by
  rw [ematch_iff]
  have hmatch {k : Nat} (hk : k < 27) : bit (OpMatch.ofImage v).matchBits k = bit v (33 + k) := getLsbD_field v 33 hk
  have hmask {k : Nat} (hk : k < 27) : bit (OpMatch.ofImage v).maskBits k = bit v (3 + k) := getLsbD_field v 3 hk
  refine and_congr (forall_congr' fun b => forall₂_congr fun hlo hhi => ?_) (forall_congr' fun b => ?_)
  · rw [hmatch (by omega), hmask (by omega), show 33 + (b - 14) = b + 19 by omega, show 3 + (b - 14) = b - 11 by omega]
  · rw [forall_prop_of_true b.zero_le]
    refine forall_congr' fun hhi => ?_
    rw [hmatch (by omega), hmask (by omega), Nat.add_comm 33, Nat.add_comm 3]

/-- Settles O27: the two bit ranges of R83, in the bits of the fields and in those of the register image. -/
theorem encodingMatchComparesTheUnmaskedBits : Obligations.EncodingMatchComparesTheUnmaskedBits := by
  refine ⟨fun enco mt mk => ?_, ematch_ofImage_iff⟩
  rw [ematch_iff]
  simp only [Nat.zero_le, forall_const]

/-! ### The recipe that matches every instruction -/

/-- The type check passes every type where all four mifb bits are one (R82). -/
theorem imatch_of_allOnes {r : OpMatch} (hm : r.m = true) (hi : r.i = true) (hf : r.f = true) (hb : r.b = true) :
    ∀ itype, imatch itype r = true
  | .M => hm
  | .I => hi
  | .F => hf
  | .B => hb

/-- With every bit masked the encoding and the match bits do not matter (R83). -/
theorem ematch_of_mask_allOnes (enco : BitVec 41) (mt : BitVec 27) : ematch enco mt (BitVec.allOnes 27) = true := by
  have hmasked (b : Nat) (h : b < 27) : bit (BitVec.allOnes 27) b = true := by
    rw [bit, BitVec.getLsbD_allOnes, decide_eq_true h]
  exact (ematch_iff _ _ _).mpr ⟨fun b _ _ => .inr (hmasked (b - 14) (by omega)), fun b _ _ => .inr (hmasked b (by omega))⟩

/-- A field of ones has every bit of its range set. -/
theorem getLsbD_of_field_allOnes {v : Word} {lo len : Nat} (h : v.extractLsb' lo len = BitVec.allOnes len) {k : Nat}
    (hk : k < len) : v.getLsbD (lo + k) = true := by
  rw [← getLsbD_field v lo hk, h, BitVec.getLsbD_allOnes, decide_eq_true hk]

/-- The recipe of R84: a register written with all mifb and all mask bits one matches every instruction. -/
theorem opcodeMatch_ofImage_of_allOnes {v : Word} (hmifb : v.extractLsb' 60 4 = BitVec.allOnes 4)
    (hmask : v.extractLsb' 3 27 = BitVec.allOnes 27) (itype : IType) (enco : BitVec 41) :
    opcodeMatch (OpMatch.ofImage v) itype enco = true := by
  have hbit (k : Nat) (hk : k < 4) : v.getLsbD (60 + k) = true := getLsbD_of_field_allOnes hmifb hk
  have htype : imatch itype (OpMatch.ofImage v) = true :=
    imatch_of_allOnes (hbit 3 (by decide)) (hbit 2 (by decide)) (hbit 1 (by decide)) (hbit 0 (by decide)) itype
  have hcode : ematch enco (OpMatch.ofImage v).matchBits (OpMatch.ofImage v).maskBits = true := by
    rw [show (OpMatch.ofImage v).maskBits = BitVec.allOnes 27 from hmask]
    exact ematch_of_mask_allOnes _ _
  exact Bool.and_eq_true_iff.mpr ⟨htype, hcode⟩

/-- Where the present registers are seen, a fetch shows its outputs for the registers as they stand. -/
theorem fetchOutputs_of_seesPresent {s : State} (h : s.seesPresent) (itype : IType) (enco : BitVec 41) :
    fetchOutputs s.seen s.env itype enco = fetchOutputs s.tagRegs s.env itype enco :=
  congrArg (fetchOutputs · s.env itype enco) (referenceSemanticsSeesThePresentRegisters s (.inl h))

/-- Settles O29: the fetch sees the register as the write left it, and that matches every instruction. -/
theorem matchAllRecipeMatchesEveryInstruction : Obligations.MatchAllRecipeMatchesEveryInstruction := by
  refine fun itype enco v s => ⟨fun _ => rfl, fun hmifb hmask hpresent => ?_⟩
  have hmatch := congrArg some (opcodeMatch_ofImage_of_allOnes hmifb hmask itype enco)
  refine ⟨_, _, _, _, rfl, rfl, (congrArg Obs.match8 (fetchOutputs_of_seesPresent ?_ itype enco)).trans hmatch,
    rfl, rfl, (congrArg Obs.match9 (fetchOutputs_of_seesPresent ?_ itype enco)).trans hmatch⟩
  · exact hpresent
  · exact hpresent

/-! ### The outputs of the fetches -/

/-- Settles O30: a fetch shows `fetchOutputs` of what is seen, and its range tag is the formula of R73. -/
theorem fetchOutputsAreTheTags : Obligations.FetchOutputsAreTheTags :=
  fun _ _ s => ⟨ibrRangeTag s.seen.ta s.env, rfl, rfl⟩

/-- Settles O31: an IA-32 fetch shows the seen `ta` and no opcode tag, and leaves the rest of the state as it is. -/
theorem ia32FetchIsTaggedByTagAllAlone : Obligations.Ia32FetchIsTaggedByTagAllAlone := fun _ => rfl

end Sys2Proof.Machine

/-! Proofs about the data address range check (43_data_range_check.md): `pt` in PMC[11], the match of a DBR pair, and the
tags of the two classes of memory reference. -/

namespace Sys2Proof.Machine

/-! ### PMC[11] -/

/-- Settles O36: the write stores bit PT_BIT; the read answers the image of PMC[11], which is `pt` there and the draw
elsewhere. -/
theorem passTagsIsThePtBitOfPmc11 : Obligations.PassTagsIsThePtBitOfPmc11 := by
  refine fun v s => ⟨rfl, ?_, BitVec.getLsbD_zero, pmc11Image s.regs.pt s.drawn, rfl, pmc11_image_pt _ _, ?_⟩
  · rw [BitVec.getLsbD_twoPow, decide_eq_true Config.ptBit.isLt, decide_eq_true rfl, Bool.and_self]
  · exact fun b hb hne => pmc11_image_other _ _ hb hne

/-! ### The match of a DBR pair -/

/-- Settles O37: a DBR pair matches by the four bit ranges of its address part; no definition reads r, w or plm. -/
theorem dbrMatchIsTheFormulaOfItsPair : Obligations.DbrMatchIsTheFormulaOfItsPair := by
  refine fun p addr => ⟨?_, fun _ _ _ => rfl⟩
  rw [dbrMatch, addrMatch_iff]
  simp only [Nat.zero_le, forall_const]

/-- An address is in range where some pair matches it and the DBRs are not in use as breakpoints (R92). -/
theorem dbrRangeMatch_iff (e : Env) (addr : Word) :
    dbrRangeMatch e addr = true ↔ e.psr.db = false ∧ ∃ k : Fin 4, dbrMatch e.dbr[k] addr = true := by
  simp [dbrRangeMatch, Fin.exists_fin_succ, or_assoc, and_comm]

/-! ### The tags of the two classes of reference -/

section Tags

variable (tag8 rangeMatch : Bool)

theorem dbrRangeTag_of_pt : dbrRangeTag tag8 true rangeMatch = tag8 := Bool.and_true tag8

theorem dbrRangeTag_of_not_pt : dbrRangeTag tag8 false rangeMatch = (tag8 && rangeMatch) := rfl

theorem rseVhptRangeTag_of_pt : rseVhptRangeTag tag8 true rangeMatch = tag8 := rfl

theorem rseVhptRangeTag_of_not_pt : rseVhptRangeTag tag8 false rangeMatch = rangeMatch := rfl

/-- With `pt` = 1 both classes pass tag8 on; with `pt` = 0 only an instruction's reference needs tag8 besides the range
(C4). -/
theorem dbrRangeTag_ne_rseVhptRangeTag_iff (pt : Bool) :
    dbrRangeTag tag8 pt rangeMatch ≠ rseVhptRangeTag tag8 pt rangeMatch ↔
      pt = false ∧ rangeMatch = true ∧ tag8 = false := by
  cases pt with
  | true => simp [dbrRangeTag_of_pt, rseVhptRangeTag_of_pt]
  | false => simp [dbrRangeTag_of_not_pt, rseVhptRangeTag_of_not_pt]

end Tags

/-- Settles O38: a memory reference shows `dbrRangeMatch`, and its tag for the `pt` that is seen, and changes nothing
else. -/
theorem memoryReferenceIsTaggedByRangeAndTag8 : Obligations.MemoryReferenceIsTaggedByRangeAndTag8 :=
  fun addr _ s => ⟨dbrRangeMatch s.env addr, rfl, rfl⟩

/-- Settles O39: the tag is `rseVhptRangeTag`, which is tag8 with `pt` = 1 and the range match with `pt` = 0. -/
theorem rseAndVhptReferencesAreTaggedByRangeOrTag8 : Obligations.RseAndVhptReferencesAreTaggedByRangeOrTag8 := by
  refine fun addr tag8 s => ⟨_, rfl, fun hpt => ?_, fun hpt => ?_⟩
  · rw [hpt, rseVhptRangeTag_of_pt]
  · rw [hpt, rseVhptRangeTag_of_not_pt]
    exact dbrRangeMatch_iff s.env addr

/-- Settles O40: both events show the tag of their class, made of the same tag8, seen `pt` and range match. -/
theorem referenceClassesDifferOnlyInRangeWithoutTag8 : Obligations.ReferenceClassesDifferOnlyInRangeWithoutTag8 :=
  fun addr tag8 s => ⟨_, _, _, _, _, rfl, rfl, rfl, rfl, rfl,
    dbrRangeTag_ne_rseVhptRangeTag_iff tag8 (dbrRangeMatch s.env addr) s.seen.pt⟩

end Sys2Proof.Machine

/-! Proofs about the instruction EAR (44_instruction_ear.md): PMC[10], the capture of a miss, the reads of the event
address data registers, their stability while frozen, and what the tags depend on. -/

namespace Sys2Proof.Machine

/-! ### Fields of a word, from its bits -/

section Fields

variable {v : Word} {lo len : Nat}

theorem field_eq_of_bits {f : BitVec len} (h : ∀ k < len, v.getLsbD (lo + k) = f.getLsbD k) :
    v.extractLsb' lo len = f :=
  BitVec.eq_of_getLsbD_eq fun k hk => (getLsbD_field v lo hk).trans (h k hk)

theorem field_eq_zero_of_bits (h : ∀ k < len, v.getLsbD (lo + k) = false) : v.extractLsb' lo len = 0 :=
  field_eq_of_bits fun k hk => (h k hk).trans BitVec.getLsbD_zero.symm

end Fields

/-! ### The fields of PMC[10] -/

/-- The image of PMC[10] loses no field, so a read reports them all (R100). -/
theorem pmc10_ofImage_image (p : Pmc10) : Pmc10.ofImage p.image = p := by
  have hplm : p.image.extractLsb' 0 4 = p.plm := field_eq_of_bits fun k hk => by
    simp (disch := omega) only [pmc10_image_bit, if_pos, Nat.zero_add]
  have humask : p.image.extractLsb' 16 4 = p.umask := field_eq_of_bits fun k hk => by
    simp (disch := omega) only [pmc10_image_bit, if_pos, if_neg, Nat.add_sub_cancel_left]
  have hism : p.image.extractLsb' 24 2 = p.ism := field_eq_of_bits fun k hk => by
    simp (disch := omega) only [pmc10_image_bit, if_pos, if_neg, Nat.add_sub_cancel_left]
  have hpm : p.image.getLsbD 6 = p.pm := pmc10_image_bit p 6
  have htlb : p.image.getLsbD 7 = p.tlb := pmc10_image_bit p 7
  simp only [Pmc10.ofImage, field, bit, hplm, humask, hism, hpm, htlb]

/-- The ignored bits of PMC[10] read zero (D3). -/
theorem pmc10_image_bit_eq_false (p : Pmc10) {b : Nat}
    (h : 4 ≤ b ∧ b < 6 ∨ 8 ≤ b ∧ b < 16 ∨ 20 ≤ b ∧ b < 24 ∨ 26 ≤ b) : p.image.getLsbD b = false := by
  rw [pmc10_image_bit]
  obtain h | h | h | h := h
  all_goals simp (disch := omega) only [if_pos, if_neg]

/-- Settles O41: the fields are read back from the image, which is zero outside them. -/
theorem readOfPmc10ReturnsItsFields : Obligations.ReadOfPmc10ReturnsItsFields := by
  intro s
  have hfields := pmc10_ofImage_image s.regs.pmc10
  have hzero {lo len : Nat} (hrange : ∀ k < len, 4 ≤ lo + k ∧ lo + k < 6 ∨ 8 ≤ lo + k ∧ lo + k < 16 ∨
      20 ≤ lo + k ∧ lo + k < 24 ∨ 26 ≤ lo + k) : s.regs.pmc10.image.extractLsb' lo len = 0 :=
    field_eq_zero_of_bits fun k hk => pmc10_image_bit_eq_false _ (hrange k hk)
  exact ⟨s.regs.pmc10.image, rfl, congrArg Pmc10.plm hfields, hzero (by omega), congrArg Pmc10.pm hfields,
    congrArg Pmc10.tlb hfields, hzero (by omega), congrArg Pmc10.umask hfields, hzero (by omega),
    congrArg Pmc10.ism hfields, hzero (by omega)⟩

/-- Settles O42: the write is a store of the registers with `Pmc10.ofImage v`. -/
theorem writeOfPmc10StoresItsFields : Obligations.WriteOfPmc10StoresItsFields :=
  fun v _ => ⟨Pmc10.ofImage v, rfl, rfl, rfl, rfl, rfl, rfl⟩

/-! ### The capture of a miss -/

/-- R103 and R104: the four conditions of a capture. -/
theorem captureEnabled_iff (r : Regs) (e : Env) (lat : Nat) :
    captureEnabled r e lat = true ↔
      r.pmc0.fr = false ∧ r.pmc10.tlb = false ∧ Config.iearThreshold r.pmc10.umask < lat ∧
      Config.iearQualify r.pmc10.plm r.pmc10.pm r.pmc10.ism e.psr.is e.psr.db e.psr.cpl = true := by
  simp only [captureEnabled, Bool.and_eq_true, Bool.not_eq_true', decide_eq_true_eq, and_assoc]

section Capture

variable {s : State} {lat : Nat} (line : BitVec 59)

theorem execEvIearCapture_of_not_enabled (h : ¬ captureEnabled s.regs s.env lat = true) :
    execEvIearCapture line lat s = notEnabled s :=
  if_neg h

/-- The free choice of D14 takes the miss. -/
theorem execEvIearCapture_of_taken (h : captureEnabled s.regs s.env lat = true) (hd : bit s.drawn 0 = true) :
    execEvIearCapture line lat s = store (s.regs.capture line lat s.drawn) s.afterDraw :=
  (if_pos h).trans (if_pos hd)

/-- The free choice of D14 drops the miss. -/
theorem execEvIearCapture_of_dropped (h : captureEnabled s.regs s.env lat = true) (hd : ¬ bit s.drawn 0 = true) :
    execEvIearCapture line lat s = noEffect s.afterDraw :=
  (if_pos h).trans (if_neg hd)

end Capture

/-- Settles O43: the event is not enabled, is taken or is dropped, and only where it is taken are registers written. -/
theorem qualifiedMissIsCapturedOrDropped : Obligations.QualifiedMissIsCapturedOrDropped := by
  intro line lat s
  simp only [← captureEnabled_iff]
  by_cases hen : captureEnabled s.regs s.env lat = true
  · by_cases hd : bit s.drawn 0 = true
    · exact ⟨_, execEvIearCapture_of_taken line hen hd, ⟨⟨rfl, rfl, rfl⟩, rfl⟩, iff_of_true rfl hen,
        fun _ => ⟨bit s.drawn 1, capturedLatency lat s.drawn, fun hlat => capturedLatency_fits hlat _, rfl⟩,
        fun hnot => absurd ⟨hen, hd⟩ hnot⟩
    · exact ⟨_, execEvIearCapture_of_dropped line hen hd, ⟨⟨rfl, rfl, rfl⟩, rfl⟩, iff_of_true rfl hen,
        fun h => absurd h.2 hd, fun _ => rfl⟩
  · exact ⟨_, execEvIearCapture_of_not_enabled line hen, ⟨⟨rfl, rfl, rfl⟩, rfl⟩, iff_of_false nofun hen,
      fun h => absurd h.1 hen, fun _ => rfl⟩

/-- Settles O44: each of the four reasons contradicts one condition of a capture. -/
theorem unqualifiedMissIsNotCaptured : Obligations.UnqualifiedMissIsNotCaptured := by
  intro line lat s hreason
  refine execEvIearCapture_of_not_enabled line fun hen => ?_
  obtain ⟨hfr, htlb, hlat, hqualify⟩ := (captureEnabled_iff _ _ _).mp hen
  obtain h | h | h | h := hreason
  · cases hfr.symm.trans h
  · cases htlb.symm.trans h
  · exact absurd hlat (Nat.not_lt.mpr h)
  · cases hqualify.symm.trans h

/-! ### The reads of the event address data registers -/

section Reads

variable {s : State}

theorem readInstructionEar_of_not_frozen (hfr : s.regs.pmc0.fr = false) (frozen : Word) :
    readInstructionEar frozen s = answerDrawn s.drawn s :=
  if_pos (by rw [hfr]; rfl)

theorem readInstructionEar_of_tlb_mode (hfr : s.regs.pmc0.fr = true) (htlb : s.regs.pmc10.tlb = true)
    (frozen : Word) : readInstructionEar frozen s = .refused .tlbModeNotInSource :=
  (if_neg (by rw [hfr]; exact Bool.false_ne_true)).trans (if_pos htlb)

theorem readInstructionEar_of_cache_mode (hfr : s.regs.pmc0.fr = true) (htlb : s.regs.pmc10.tlb = false)
    (frozen : Word) : readInstructionEar frozen s = answerDrawn frozen s :=
  (if_neg (by rw [hfr]; exact Bool.false_ne_true)).trans (if_neg (by rw [htlb]; exact Bool.false_ne_true))

theorem readDataEar_of_not_frozen (hfr : s.regs.pmc0.fr = false) : readDataEar s = answerDrawn s.drawn s :=
  if_pos (by rw [hfr]; rfl)

theorem readDataEar_of_frozen (hfr : s.regs.pmc0.fr = true) : readDataEar s = .refused .dataEarLayoutNotInSource :=
  if_neg (by rw [hfr]; exact Bool.false_ne_true)

end Reads

section Images

variable (r : Regs) (drawn : Word)

/-- The line of a frozen read of PMD[0] (R105). -/
theorem pmd0_image_line : (pmd0Image r drawn).extractLsb' 5 59 =
    if r.iearCaptured then r.pmd0.line else drawn.extractLsb' 5 59 := by
  refine field_eq_of_bits fun k hk => ?_
  simp (disch := omega) only [pmd0_image_bit, if_neg, Nat.add_sub_cancel_left]
  split
  · rfl
  · exact (getLsbD_field drawn 5 hk).symm

/-- The latency of a frozen read of PMD[1] (R106). -/
theorem pmd1_image_latency : (pmd1Image r drawn).extractLsb' 0 12 =
    if r.iearCaptured then r.pmd1.latency else drawn.extractLsb' 0 12 := by
  refine field_eq_of_bits fun k hk => ?_
  simp (disch := omega) only [pmd1_image_bit, if_pos]
  split
  · rw [Nat.zero_add]
  · exact (getLsbD_field drawn 0 hk).symm

end Images

/-- Settles O45: the three cases of a read of the instruction EAR, and in the last the image of PMD[0] part by part. -/
theorem readOfPmd0ReportsTheCapturedLine : Obligations.ReadOfPmd0ReportsTheCapturedLine := by
  refine fun s => ⟨fun hfr => readInstructionEar_of_not_frozen hfr _,
    fun hfr htlb => readInstructionEar_of_tlb_mode hfr htlb _, fun hfr htlb =>
    ⟨pmd0Image s.regs s.drawn, readInstructionEar_of_cache_mode hfr htlb _, pmd0_image_bit _ _ (by decide), ?_,
      pmd0_image_bit _ _ (by decide), pmd0_image_line _ _⟩⟩
  refine field_eq_zero_of_bits fun k hk => ?_
  simp (disch := omega) only [pmd0_image_bit, if_pos, if_neg]

/-- Settles O46: the three cases of a read of the instruction EAR, and in the last the image of PMD[1] part by part. -/
theorem readOfPmd1ReportsTheLatency : Obligations.ReadOfPmd1ReportsTheLatency := by
  refine fun s => ⟨fun hfr => readInstructionEar_of_not_frozen hfr _,
    fun hfr htlb => readInstructionEar_of_tlb_mode hfr htlb _, fun hfr htlb =>
    ⟨pmd1Image s.regs s.drawn, readInstructionEar_of_cache_mode hfr htlb _, ?_, fun hc => ?_, fun hc => ?_⟩⟩
  · exact field_eq_zero_of_bits fun k _ => (pmd1_image_bit _ _ _).trans (if_neg (by omega))
  · rw [pmd1_image_latency, if_pos hc]
  · rw [pmd1_image_latency, if_neg (by rw [hc]; exact Bool.false_ne_true)]
    rfl

/-- Settles O47: each of the three reads is `readDataEar`, which freezing alone decides. -/
theorem readOfTheDataEarIsFreeOrRefused : Obligations.ReadOfTheDataEarIsFreeOrRefused := by
  intro s
  simp only [List.forall_mem_cons]
  have hread : (s.regs.pmc0.fr = false → readDataEar s = answerDrawn s.drawn s) ∧
      (s.regs.pmc0.fr = true → readDataEar s = .refused .dataEarLayoutNotInSource) :=
    ⟨readDataEar_of_not_frozen, readDataEar_of_frozen⟩
  exact ⟨hread, hread, hread, nofun⟩

/-! ### While frozen -/

/-- An overflow, enabled or not, writes PMC[0] alone (R64). -/
theorem execEvOvf_regs {S : BitVec 4} {s t : State} (h : execEvOvf S s = .next t) :
    ∃ p, t.regs = { s.regs with pmc0 := p } := by
  by_cases hS : S = 0
  · rw [hS, execEvOvf_zero] at h; cases h
  · cases hfr : s.regs.pmc0.fr with
    | true => rw [execEvOvf_of_frozen hS hfr] at h; cases h; exact ⟨s.regs.pmc0, rfl⟩
    | false => rw [execEvOvf_of_not_frozen hS hfr] at h; cases h; exact ⟨_, rfl⟩

/-- Settles O48: the overflow leaves the captured registers to the two reads, which report them. -/
theorem frozenReadsReportOneMiss : Obligations.FrozenReadsReportOneMiss := by
  intro line lat drawn S r c f hc hlat htlb hovf hfr
  obtain ⟨p, hf⟩ := execEvOvf_regs hovf
  rw [hc] at hf
  have hcache : f.regs.pmc10.tlb = false := by rw [hf]; exact htlb
  have hcaptured : f.regs.iearCaptured = true := by rw [hf]; rfl
  have hline : f.regs.pmd0.line = line := by rw [hf]; rfl
  have hlatency : f.regs.pmd1.latency = capturedLatency lat drawn := by rw [hf]; rfl
  obtain ⟨-, -, hread0⟩ := readOfPmd0ReportsTheCapturedLine f
  obtain ⟨x, hx, hvalid, -, -, hxline⟩ := hread0 hfr hcache
  obtain ⟨-, -, hread1⟩ := readOfPmd1ReportsTheLatency f
  obtain ⟨y, hy, -, hylatency, -⟩ := hread1 hfr hcache
  refine ⟨_, _, x, y, hx, rfl, hvalid.trans hcaptured, ?_, hy, rfl, ?_⟩
  · rw [hxline, if_pos hcaptured, hline]
  · rw [hylatency hcaptured, hlatency, capturedLatency_fits hlat]

/-- The event address data registers are the same: PMD[0], PMD[1] and `iear_captured`. -/
def Regs.sameEventAddressData (r r' : Regs) : Prop :=
  r'.pmd0 = r.pmd0 ∧ r'.pmd1 = r.pmd1 ∧ r'.iearCaptured = r.iearCaptured

/-- A capture needs fr = 0 before (R65) and a restart leaves fr = 0 behind (R107); nothing else
writes these registers. -/
theorem Effect.sameEventAddressData_of_frozen {i : Instr} {s t : State} (h : Effect i s t)
    (hs : s.regs.pmc0.fr = true) (ht : t.regs.pmc0.fr = true) : s.regs.sameEventAddressData t.regs := by
  cases h with
  | captured line lat _ hen => cases hs.symm.trans ((captureEnabled_iff _ _ _).mp hen).1
  | restarted v _ hyes =>
    have hends : (Pmc0.ofImage v).fr = false := ((reEnables_ofImage_iff _ v).mp hyes).2
    rw [restartCollection_pmc0, hends] at ht
    cases ht
  | configured _ _ _ _ hd0 hd1 hc => exact ⟨hd0, hd1, hc⟩
  | shown | taken | pmc0Written | overflowed => exact ⟨rfl, rfl, rfl⟩

/-- Settles O54: the idle step changes no register, and any other step is an operation's effect; the inputs it accepts
and the record it extends are no registers. -/
theorem frozenDataRegistersAreStable : Obligations.FrozenDataRegistersAreStable := by
  intro s t h hs ht
  obtain ⟨-, rfl⟩ | ⟨r, rest, i, u, -, -, hexec, rfl⟩ := step_next h
  · exact ⟨rfl, rfl, rfl⟩
  · exact (exec_effect hexec).sameEventAddressData_of_frozen hs ht

/-! ### What the tags depend on -/

/-- Nothing of the record beyond SYNC_DELAY decides what is seen of the part `f` of what is recorded (R135). -/
theorem seenAt_map_congr {α : Type} {past past' : List TagRegs}
    (h : past.take Config.syncDelay = past'.take Config.syncDelay) (f : TagRegs → α) (lag : Nat) (now : α) :
    seenAt lag now (past.map f) = seenAt lag now (past'.map f) := by
  rw [← seenAt_take lag now (past.map f), ← seenAt_take lag now (past'.map f), ← List.map_take, ← List.map_take, h]

/-- States that agree on the tag registers, the inputs and the record within SYNC_DELAY see the same; where the present
registers are seen, the record does not enter. -/
theorem seen_congr {s u : State} (htag : s.tagRegs = u.tagRegs) (henv : s.env = u.env)
    (hpast : s.past.take Config.syncDelay = u.past.take Config.syncDelay ∨ s.seesPresent) : s.seen = u.seen := by
  obtain htake | hpresent := hpast
  · have hta : s.regs.ta = u.regs.ta := congrArg TagRegs.ta htag
    have hpmc8 : s.regs.pmc8 = u.regs.pmc8 := congrArg TagRegs.pmc8 htag
    have hpmc9 : s.regs.pmc9 = u.regs.pmc9 := congrArg TagRegs.pmc9 htag
    have hpt : s.regs.pt = u.regs.pt := congrArg TagRegs.pt htag
    simp only [State.seen, henv, hta, hpmc8, hpmc9, hpt, seenAt_map_congr htake]
  · have hpresent' : u.seesPresent := (congrArg Env.lag henv).symm.trans hpresent
    calc s.seen = s.tagRegs := referenceSemanticsSeesThePresentRegisters s (.inl hpresent)
      _ = u.tagRegs := htag
      _ = u.seen := (referenceSemanticsSeesThePresentRegisters u (.inl hpresent')).symm

/-- What a tag event shows, as a function of the tag registers that are seen and of the inputs (R86, R89, R94, R95). -/
def tagOutputs (g : TagRegs) (e : Env) : Instr → Obs
  | .evFetch itype enco => fetchOutputs g e itype enco
  | .evFetch32 => { Obs.silent with ibrRangeTag := some g.ta, tag8 := some false, tag9 := some false }
  | .evMemref addr tag8 => { Obs.silent with
      dbrRangeMatch := some (dbrRangeMatch e addr), dbrRangeTag := some (dbrRangeTag tag8 g.pt (dbrRangeMatch e addr)) }
  | .evRseVhpt addr tag8 => { Obs.silent with rangeTag := some (rseVhptRangeTag tag8 g.pt (dbrRangeMatch e addr)) }
  | _ => Obs.silent

/-- A tag event changes nothing but what is shown, and reads the state for nothing but `tagOutputs`. -/
theorem exec_tagEvent {i : Instr} (h : i.isTagEvent = true) (s : State) :
    exec i s = .next (s.show (tagOutputs s.seen s.env i)) := by
  cases i with
  | evFetch | evFetch32 | evMemref | evRseVhpt => rfl
  | _ => cases h

/-- Settles O35: both states show the same function of the same seen registers and inputs. -/
theorem tagsDependOnTagRegistersRecordAndInputsAlone : Obligations.TagsDependOnTagRegistersRecordAndInputsAlone := by
  intro i s u hi htag henv hpast
  refine ⟨tagOutputs s.seen s.env i, exec_tagEvent hi s, ?_⟩
  rw [seen_congr htag henv hpast, henv]
  exact exec_tagEvent hi u

end Sys2Proof.Machine

/-! Proofs about the hazards (70_reset_and_hazards.md): how old a value may be that the tag functions see. -/

namespace Sys2Proof.Machine

section Record

variable {α : Type} (f : TagRegs → α) (lag : Nat)

/-- R135 for the part `f` of what is recorded: it is seen as it stands, or as one of the last SYNC_DELAY steps found it. -/
theorem seenAt_map_mem (now : α) (past : List TagRegs) :
    seenAt lag now (past.map f) = now ∨ seenAt lag now (past.map f) ∈ (past.take Config.syncDelay).map f := by
  rw [List.map_take]
  exact seenAt_mem lag now (past.map f)

/-- Where the last SYNC_DELAY steps all found the registers `g`, the present ones, a part of them is seen as it stands. -/
theorem seenAt_map_of_unchanged {g : TagRegs} {past : List TagRegs} (h : ∀ g' ∈ past.take Config.syncDelay, g' = g) :
    seenAt lag (f g) (past.map f) = f g := by
  obtain hnow | hmem := seenAt_map_mem f lag (f g) past
  · exact hnow
  · obtain ⟨g', hg', heq⟩ := List.mem_map.mp hmem
    exact heq.symm.trans (congrArg f (h g' hg'))

end Record

/-- R135: once the last SYNC_DELAY steps have not changed the tag registers, they are seen as they stand. -/
theorem seen_of_unchanged {s : State} (h : ∀ g ∈ s.past.take Config.syncDelay, g = s.tagRegs) : s.seen = s.tagRegs :=
  (TagRegs.mk.injEq ..).mpr ⟨seenAt_map_of_unchanged TagRegs.ta _ h, seenAt_map_of_unchanged TagRegs.pmc8 _ h,
    seenAt_map_of_unchanged TagRegs.pmc9 _ h, seenAt_map_of_unchanged TagRegs.pt _ h⟩

/-- Settles O33: the bound for each of the four registers, and the present ones where the record holds no others. -/
theorem seenValuesAreWithinTheSyncDelay : Obligations.SeenValuesAreWithinTheSyncDelay :=
  fun s => ⟨seen_ta_mem s, seenAt_map_mem TagRegs.pmc8 _ _ _, seenAt_map_mem TagRegs.pmc9 _ _ _,
    seenAt_map_mem TagRegs.pt _ _ _, seen_of_unchanged⟩

end Sys2Proof.Machine

/-! Proofs about the `mov` syllables (93_implementation_defined.md G1): the decoder's comparison of two fields is the
table's mask and match. -/

namespace Sys2Proof

/-- Vectors of the same widths put together are equal part by part. -/
theorem append_eq_append_iff {m n : Nat} {x x' : BitVec m} {y y' : BitVec n} :
    x ++ y = x' ++ y' ↔ x = x' ∧ y = y' := by
  constructor
  · intro h
    have hx := congrArg (BitVec.extractLsb' n m) h
    have hy := congrArg (BitVec.extractLsb' 0 n) h
    rw [BitVec.extractLsb'_append_eq_left, BitVec.extractLsb'_append_eq_left] at hx
    rw [BitVec.extractLsb'_append_eq_right, BitVec.extractLsb'_append_eq_right] at hy
    exact ⟨hx, hy⟩
  · rintro ⟨rfl, rfl⟩
    rfl

/-- A syllable cut where the table's mask changes between ones and zeros. -/
theorem syllable_eq_append (enco : BitVec 41) :
    field enco 37 4 ++ field enco 36 1 ++ field enco 27 9 ++ field enco 0 27 = enco := by
  rw [BitVec.extractLsb'_append_extractLsb'_eq_extractLsb' (rfl : 37 = 36 + 1),
    BitVec.extractLsb'_append_extractLsb'_eq_extractLsb' (rfl : 36 = 27 + 9),
    BitVec.extractLsb'_append_extractLsb'_eq_extractLsb' (rfl : 27 = 0 + 27)]
  exact BitVec.extractLsb'_eq_self

/-- The table's mask keeps the two fields of the key and clears every other bit. -/
theorem and_tableMask (enco : BitVec 41) :
    enco &&& 0x1EFF8000000 = (syllableKey enco).1 ++ 0#1 ++ (syllableKey enco).2 ++ 0#27 :=
  calc enco &&& 0x1EFF8000000
    _ = (field enco 37 4 ++ field enco 36 1 ++ field enco 27 9 ++ field enco 0 27 : BitVec (4 + 1 + 9 + 27)) &&&
        (BitVec.allOnes 4 ++ 0#1 ++ BitVec.allOnes 9 ++ 0#27) :=
      congrArg (· &&& 0x1EFF8000000) (syllable_eq_append enco).symm
    _ = field enco 37 4 ++ 0#1 ++ field enco 27 9 ++ 0#27 := by
      simp only [BitVec.and_append, BitVec.and_allOnes, BitVec.and_zero]

/-- The decoder's comparison of the key is the table's comparison under its mask. -/
theorem syllableKey_eq_iff (enco : BitVec 41) (k : BitVec 4 × BitVec 9) :
    syllableKey enco = k ↔ enco &&& 0x1EFF8000000 = k.1 ++ 0#1 ++ k.2 ++ 0#27 := by
  rw [and_tableMask, append_eq_append_iff, append_eq_append_iff, append_eq_append_iff, Prod.ext_iff]
  simp only [and_true]

/-- An image of class 0 with its unused operands zero is read as its syllable. -/
theorem decode_syllable (enco : BitVec 41) : decode ⟨0, enco, 0, 0⟩ = decodeSyllable enco := rfl

/-- What a syllable can decode to: the row of its key, with the fields where they stand. -/
theorem decodeSyllable_eq_ok_iff {enco : BitVec 41} {i : Instr} :
    decodeSyllable enco = .ok i ↔
      syllableKey enco = (1, 0x04) ∧ i = .movToPmc (field enco 20 7) (field enco 13 7) (field enco 0 6) ∨
      syllableKey enco = (1, 0x05) ∧ i = .movToPmd (field enco 20 7) (field enco 13 7) (field enco 0 6) ∨
      syllableKey enco = (1, 0x14) ∧ i = .movFromPmc (field enco 6 7) (field enco 20 7) (field enco 0 6) ∨
      syllableKey enco = (1, 0x15) ∧ i = .movFromPmd (field enco 6 7) (field enco 20 7) (field enco 0 6) := by
  unfold decodeSyllable
  split_ifs with hToPmc hToPmd hFromPmc hFromPmd
  · simp [hToPmc, eq_comm]
  · simp [hToPmd, eq_comm]
  · simp [hFromPmc, eq_comm]
  · simp [hFromPmd, eq_comm]
  · simp only [hToPmc, hToPmd, hFromPmc, hFromPmd, false_and, or_self]

/-- Settles O4: a `mov` row is what its key alone decodes to, and the key is compared under the table's mask. -/
theorem movRowsAreThoseOfTheTableMask : Obligations.MovRowsAreThoseOfTheTableMask := by
  intro enco
  simp only [decode_syllable, decodeSyllable_eq_ok_iff]
  refine ⟨?_, ?_, ?_, ?_⟩
  · simpa using syllableKey_eq_iff enco (1, 0x04)
  · simpa using syllableKey_eq_iff enco (1, 0x05)
  · simpa using syllableKey_eq_iff enco (1, 0x14)
  · simpa using syllableKey_eq_iff enco (1, 0x15)

/-- Settles O1: each word is the number of a class 0 image, and the decoder evaluates on it. -/
theorem movRowsDecodeFromTheirTableWords : Obligations.MovRowsDecodeFromTheirTableWords :=
  ⟨rfl, rfl, rfl, rfl, rfl⟩

end Sys2Proof
